-- ==== Sys2Proof/Word.lean ====
section
/-! DEFINITION. The two bit-vector types of the CORE (00_scope.md R5, R8). -/

namespace Sys2Proof

/-- A `u32`: unsigned, 32 bits, bit 0 the least significant (R5, R8). -/
abbrev Word := BitVec 32

/-- A `u8` (R8). -/
abbrev Byte := BitVec 8

end Sys2Proof
end

