-- ==== Sys2Proof/Syntax.lean ====
section
/-! DEFINITION. The instruction set of the CORE: its four commands (00_scope.md R1, 30_encoding.md R54). No command
word carries an operand (R55). -/

namespace Sys2Proof

/-- One constructor per row of the opcode map (R54). -/
inductive Instr where
  /-- Load a key and the default round count (R62). -/
  | usingKey
  /-- Set the round count (R63). -/
  | withRounds
  /-- Encipher a buffer (R90). -/
  | encipher
  /-- Decipher a buffer (R91). -/
  | decipher
deriving DecidableEq, Repr

end Sys2Proof
end

