-- ==== Sys2Proof/Decode.lean ====
section
/-! DEFINITION. The command word: decoder, encoder and the opcode table's word layout (30_encoding.md R53, R54, R56). -/

namespace Sys2Proof

/-- The field OP, bits [3:0] (R53). -/
def opField (w : Word) : BitVec 4 := w.extractLsb' 0 4

/-- The field MBZ, bits [31:4], which must be zero (R53). -/
def mbzField (w : Word) : BitVec 28 := w.extractLsb' 4 28

/-- Why a word is illegal (R57). -/
inductive IllegalWord where
  /-- Some bit of [31:4] is set. -/
  | mustBeZeroSet
  /-- OP is 0x0 or in 0x5 .. 0xF. -/
  | opUnassigned (op : BitVec 4)
deriving DecidableEq, Repr

/-- The decoder of R56: the must-be-zero bits first, then OP. It is total on words. -/
def decode (w : Word) : Except IllegalWord Instr :=
  if mbzField w ≠ 0#28 then .error .mustBeZeroSet
  else
    match (opField w).toNat with
    | 1 => .ok .usingKey
    | 2 => .ok .withRounds
    | 3 => .ok .encipher
    | 4 => .ok .decipher
    | _ => .error (.opUnassigned (opField w))

/-- The word of a command, from the opcode map of R54. -/
def encode : Instr → Word
  | .usingKey => 0x00000001#32
  | .withRounds => 0x00000002#32
  | .encipher => 0x00000003#32
  | .decipher => 0x00000004#32

/-- The command word that a row of the opcode table describes: bit 0 is the word's least significant bit, and every
bit from `nbits` on is 0. A command is exactly one 32-bit word (R53, R59), so bits from 32 on are not read (DESIGN
CHOICE, log 17, safe). -/
def tableWord (nbits w : Nat) : Word := BitVec.ofNat 32 (w % 2 ^ nbits)

/-- What the decoder reads from the instruction whose bits are `w`. The host bus delivers the word whole, so no byte
order applies (R53). -/
def decodeTableWord (nbits w : Nat) : Option Instr :=
  match decode (tableWord nbits w) with
  | .ok i => some i
  | .error _ => none

end Sys2Proof
end

