-- ==== Sys2Proof/Config.lean ====
section
/-! DEFINITION. The parameters of the CORE (00_scope.md R6, R7) and the free values the spec leaves open (R12, R22). -/

namespace Sys2Proof

/-- BYTE_ORDER of R6 and R39. -/
inductive ByteOrder where
  | be
  | le
deriving DecidableEq, Repr

/-- The four parameters the model takes as arguments (R6, R7). `State` holds one value of this type
and no step changes it (log 6). -/
structure Config where
  /-- DELTA (R6, R64). -/
  delta : Word
  /-- BYTE_ORDER (R6, R39). -/
  byteOrder : ByteOrder
  /-- MEM_SIZE: the bytes of MEM are 0 .. memSize - 1 (R7). -/
  memSize : Nat
  /-- REG_BASE: the host address of the register block (R7, R45). -/
  regBase : Nat
deriving DecidableEq, Repr

/-- The one constraint R7 puts on a parameter: MEM_SIZE is at most 2^32. -/
abbrev Config.wf (c : Config) : Prop := c.memSize ≤ 2 ^ 32

/-- The parameters of `State.reset`. `delta` and `byteOrder` are the defaults of R6.
DESIGN CHOICE (log 6, unsafe): R7 leaves MEM_SIZE and REG_BASE open; every u32 address is in MEM and the
register block stands at host address 0.
UNVERIFIED (log 7, unsafe): the spec marks its value of DELTA as general knowledge. -/
def Config.default : Config :=
  { delta := 0x9E3779B9#32, byteOrder := .be, memSize := 2 ^ 32, regBase := 0 }

/-- The draw `any u32` of R12 and R22: the value of the n-th draw. It has no body, so a statement about a
drawn value holds for every value (log 3, safe). -/
opaque Config.freeWord : Nat → Word

end Sys2Proof
end

