-- ==== Sys2Proof/Machine/HostOp.lean ====
section
/-! DEFINITION. What the host can do to the machine, and what its reads return (30_encoding.md R60, 10_state.md R18,
20_memory.md R35, 70_reset_and_hazards.md R110). -/

namespace Sys2Proof.Machine

/-- One host operation. -/
inductive HostOp where
  /-- A write of `data` over the register bus, `bytes` bytes wide, at host address `addr` (R18, R19).
  For an access that is not 4 bytes wide `data` plays no part: it is refused. -/
  | busWrite (addr bytes : Nat) (data : Word)
  /-- A read over the register bus, `bytes` bytes wide, at host address `addr` (R18, R19). -/
  | busRead (addr bytes : Nat)
  /-- A host write of one byte of MEM (R35; log 9). -/
  | memWrite (addr : Word) (data : Byte)
  /-- A host read of one byte of MEM (R35; log 9). -/
  | memRead (addr : Word)
  /-- The host raises reset (R109, R110; log 14). -/
  | reset
deriving DecidableEq, Repr

/-- The value one host read returned (R60, R112). -/
inductive Reply where
  /-- From a register read. -/
  | word (v : Word)
  /-- From a read of MEM. -/
  | byte (v : Byte)
deriving DecidableEq, Repr

/-- The registers of the block of R18. -/
inductive Reg where
  /-- ARG0 .. ARG3, offsets 0x00, 0x04, 0x08, 0x0C. -/
  | arg (n : Fin 4)
  /-- CMD, offset 0x10. -/
  | cmd
  /-- STATUS, offset 0x14. -/
  | status
  /-- The two reserved words, offsets 0x18 and 0x1C. -/
  | reserved (n : Fin 2)
deriving DecidableEq, Repr

end Sys2Proof.Machine
end

