-- ==== Sys2Proof/Machine/State.lean ====
section
/-! DEFINITION. The architectural state of the CORE (10_state.md R17) as plain data, its reset value
(70_reset_and_hazards.md R109), and the reasons a step can stop. -/

namespace Sys2Proof.Machine

/-- The values of STATUS.RESULT (60_exceptions.md R93). Codes 8 to 15 are never produced (log 10). -/
inductive ResultCode where
  | ok
  | invalidLength
  | insufficientOutputCapacity
  | notConfigured
  | illegalCommand
  | bufferRange
  | bufferOverlap
  | argUnwritten
deriving DecidableEq, Repr

/-- MEM: the bytes that differ from what an unlisted address reads as, by rising address. -/
abbrev Memory := List Host.Cell

/-- KEY[0..3] (R24). -/
abbrev Key := Vector Word 4

/-- The MODEL'S OWN fields, none of them the spec's: the host's side of the bus (logs 1, 2, 3). -/
structure HostSide where
  /-- The host operations still to come, oldest first (R60). -/
  ops : List HostOp
  /-- What the host's reads returned, oldest first (R112). -/
  replies : List Reply
  /-- How many free values have been drawn (R12). -/
  draws : Nat
deriving DecidableEq, Repr

/-- The record of R17, with the parameters of R6 and R7 (`config`, which no step changes) and the host's side
(`host`) beside it. CMD is not state (R27) and there is no program counter (R23). -/
structure State where
  /-- The parameters (R6, R7; log 6). -/
  config : Config
  /-- ARG0..ARG3: a word, or `none` for the spec's mark *unwritten* (R21). -/
  arg : Vector (Option Word) 4
  /-- KEY[0..3] (R24). -/
  key : Key
  /-- ROUNDS (R25). -/
  rounds : Word
  /-- STATUS.CFG_VALID (R29). -/
  cfgValid : Bool
  /-- STATUS.FAULT (R98). -/
  fault : Bool
  /-- STATUS.RESULT (R30, R93). -/
  result : ResultCode
  /-- MEM (R35). -/
  mem : Memory
  /-- The host's side, the model's own. -/
  host : HostSide
deriving DecidableEq, Repr

/-- The machine right after reset (R109): ARG unwritten, STATUS 0, MEM with nothing listed, no host operation pending.
DESIGN CHOICE (log 4, unsafe): the spec gives KEY and ROUNDS no reset value; they are 0.
DESIGN CHOICE (logs 1, 2, 3): the host's side starts empty. -/
def State.reset : State where
  config := Config.default
  arg := #v[none, none, none, none]
  key := #v[0#32, 0#32, 0#32, 0#32]
  rounds := 0#32
  cfgValid := false
  fault := false
  result := .ok
  mem := []
  host := { ops := [], replies := [], draws := 0 }

/-- What stops the machine of the model. The CORE's own faults (R95) are no stop: they are next states with
STATUS.FAULT = 1. -/
inductive Fault where
  /-- Raised by a host access to MEM at an address at or above MEM_SIZE, a byte the spec says does not exist (R35;
  log 9). Safe: the model stops where a platform may go on. -/
  | noSuchMemoryByte
deriving DecidableEq, Repr

/-- What the model gives no meaning. -/
inductive Refusal where
  /-- Reserved for an arm of `exec` that has no meaning yet; no arm raises it. Safe. -/
  | notModelled (mnemonic : String)
  /-- Raised by a register access that is not 4 bytes wide (R19: the model refuses it). Safe. -/
  | accessNotWord
  /-- Raised by a register access outside REG_BASE .. REG_BASE + 0x1F (R19: the model refuses it). Safe. -/
  | accessOutsideBlock
  /-- Raised by a register access at an offset that is not a multiple of 4 (R19: the model refuses it). Safe. -/
  | accessMisaligned
deriving DecidableEq, Repr

end Sys2Proof.Machine
end

