-- ==== Sys2Proof/Machine/Operands.lean ====
section
/-! DEFINITION. The operands of the commands: the operand registers as a command reads them (30_encoding.md R55,
10_state.md R22), and the ranges ENCIPHER and DECIPHER address (20_memory.md R42, R43). -/

namespace Sys2Proof.Machine

/-- WITH_ROUNDS reads ARG0 and nothing else; `none` when it is unwritten (R55, R63). -/
def State.roundsOperand (s : State) : Option Word := s.arg[0]

/-- USING_KEY reads the four key words; `none` when any is unwritten (R55, R62). -/
def State.keyOperand (s : State) : Option Key :=
  match s.arg[0], s.arg[1], s.arg[2], s.arg[3] with
  | some k0, some k1, some k2, some k3 => some #v[k0, k1, k2, k3]
  | _, _, _, _ => none

/-- The operands of ENCIPHER and DECIPHER (R55). -/
structure BufferArgs where
  /-- ARG0, the input address. -/
  src : Word
  /-- ARG1, the output address. -/
  dst : Word
  /-- ARG2, the input length in bytes. -/
  len : Word
  /-- ARG3, the output capacity in bytes. -/
  cap : Word
deriving DecidableEq, Repr

/-- ENCIPHER and DECIPHER read all four operand registers; `none` when any is unwritten (R55, R81). -/
def State.bufferOperands (s : State) : Option BufferArgs :=
  match s.arg[0], s.arg[1], s.arg[2], s.arg[3] with
  | some src, some dst, some len, some cap => some { src := src, dst := dst, len := len, cap := cap }
  | _, _, _, _ => none

/-- A range of MEM is admitted when it is empty or ends inside MEM, on unbounded naturals (R42). -/
abbrev admitted (memSize base len : Nat) : Prop := len = 0 ∨ base + len ≤ memSize

/-- The input and output ranges overlap, on unbounded naturals (R43). -/
abbrev overlap (src dst len : Nat) : Prop := 0 < len ∧ src < dst + len ∧ dst < src + len

end Sys2Proof.Machine
end

