-- ==== Sys2Proof/Machine/Ops.lean ====
section
/-! DEFINITION. The named operations over memory and registers, the ways a command ends, and reset (00_scope.md R11, R12;
20_memory.md R38, R39; 60_exceptions.md R94, R95, R98; 70_reset_and_hazards.md R109). -/

namespace Sys2Proof.Machine

/-! ## Memory -/

/-- What a byte that MEM does not list reads as. DESIGN CHOICE (log 8, unsafe): the spec leaves the contents of MEM
to the launch state (R34). -/
def unlistedByte : Byte := 0#8

/-- `MemRead(a, 1)` (R11). It is applied to admitted addresses only. -/
def Memory.read : Memory → Nat → Byte
  | [], _ => unlistedByte
  | (b, v) :: m, a => if b = a then v else Memory.read m a

/-- `MemWrite(a, 1, v)` (R11), keeping the canonical form. -/
def Memory.write : Memory → Nat → Byte → Memory
  | [], a, v => if v = unlistedByte then [] else [(a, v)]
  | (b, u) :: m, a, v =>
    if a < b then
      if v = unlistedByte then (b, u) :: m else (a, v) :: (b, u) :: m
    else if a = b then
      if v = unlistedByte then m else (a, v) :: m
    else (b, u) :: Memory.write m a v

/-- The canonical form: addresses strictly rising, no entry equal to what an unlisted address reads as. -/
abbrev Memory.wf (m : Memory) : Prop :=
  m.Pairwise (fun x y => x.1 < y.1) ∧ ∀ x ∈ m, x.2 ≠ unlistedByte

/-- Every listed address exists: it is below MEM_SIZE (R35). -/
abbrev Memory.within (size : Nat) (m : Memory) : Prop := ∀ x ∈ m, x.1 < size

/-- `be32(b0, b1, b2, b3)` (R11): `b0` is the most significant byte. -/
def be32 (b0 b1 b2 b3 : Byte) : Word := b0 ++ b1 ++ b2 ++ b3

/-- Byte `k` of `unbe32(v)` (R11), `k = 0` the most significant. -/
def unbe32 (v : Word) (k : Nat) : Byte := v.extractLsb' (24 - 8 * k) 8

/-- Where byte `k` of a word in memory order stands in big-endian order (R38, R39). -/
def byteRank : ByteOrder → Nat → Nat
  | .be, k => k
  | .le, k => 3 - k

/-- `MemRead(a, 4)` in the byte order of the machine (R38, R39). -/
def Memory.readWord (o : ByteOrder) (m : Memory) (a : Nat) : Word :=
  be32 (Memory.read m (a + byteRank o 0)) (Memory.read m (a + byteRank o 1))
    (Memory.read m (a + byteRank o 2)) (Memory.read m (a + byteRank o 3))

/-- `MemWrite(a, 4, v)` in the byte order of the machine: the bytes at a, a+1, a+2, a+3 in that order (R11, R38, R39). -/
def Memory.writeWord (o : ByteOrder) (m : Memory) (a : Nat) (v : Word) : Memory :=
  Memory.write
    (Memory.write
      (Memory.write
        (Memory.write m a (unbe32 v (byteRank o 0)))
        (a + 1) (unbe32 v (byteRank o 1)))
      (a + 2) (unbe32 v (byteRank o 2)))
    (a + 3) (unbe32 v (byteRank o 3))

/-! ## Registers -/

/-- A host write of ARGn (R21). -/
def State.setArg (s : State) (n : Fin 4) (v : Word) : State :=
  { s with arg := s.arg.set n.val (some v) n.isLt }

/-- The configuration that USING_KEY loads: KEY, ROUNDS and CFG_VALID together (R62). -/
def State.setConfiguration (s : State) (key : Key) (rounds : Word) : State :=
  { s with key := key, rounds := rounds, cfgValid := true }

/-- `ROUNDS <- n` (R63). -/
def State.setRounds (s : State) (n : Word) : State := { s with rounds := n }

/-- MEM replaced (R81, R35). -/
def State.setMem (s : State) (m : Memory) : State := { s with mem := m }

/-! ## How a command ends -/

/-- `result <- CODE` (R12, R94): STATUS.RESULT is written and nothing else. -/
def State.finish (s : State) (c : ResultCode) : State := { s with result := c }

/-- `raise Fault(REASON)` (R12, R95): STATUS.FAULT is set, STATUS.RESULT takes the fault's code, nothing else is
written. It is the CORE's only exception entry (R100); no operation returns from it but reset (R101). -/
def State.raiseFault (s : State) (c : ResultCode) : State := { s with fault := true, result := c }

/-- A command is taken only while STATUS.FAULT = 0; otherwise no state changes (R30, R97 step 1, R98). -/
def State.ifTaken (s : State) (command : State → State) : State := if s.fault then s else command s

/-! ## The host's side -/

/-- The host operations still to come, replaced. -/
def State.setOps (s : State) (ops : List HostOp) : State := { s with host := { s.host with ops := ops } }

/-- A host read returns `r` (R60). -/
def State.reply (s : State) (r : Reply) : State :=
  { s with host := { s.host with replies := s.host.replies ++ [r] } }

/-- A host read returns `any u32`, a draw (R12, R22): the free value of the draw counter, which moves on. -/
def State.replyDraw (s : State) : State :=
  { s with host := { s.host with replies := s.host.replies ++ [.word (Config.freeWord s.host.draws)],
                                 draws := s.host.draws + 1 } }

/-- Reset as the host raises it (R109, R110): ARG unwritten, STATUS 0, MEM unchanged (R34), KEY and ROUNDS `any u32`
each, five draws (log 5). The parameters and the host's side stay (log 14). -/
def State.hostReset (s : State) : State :=
  { s with
    arg := #v[none, none, none, none]
    key := #v[Config.freeWord s.host.draws, Config.freeWord (s.host.draws + 1),
              Config.freeWord (s.host.draws + 2), Config.freeWord (s.host.draws + 3)]
    rounds := Config.freeWord (s.host.draws + 4)
    cfgValid := false
    fault := false
    result := .ok
    host := { s.host with draws := s.host.draws + 5 } }

end Sys2Proof.Machine
end

