-- ==== Sys2Proof/Machine/KeySchedule.lean ====
section
/-! DEFINITION. xtea_key_schedule (40_key_schedule.md): the meanings of USING_KEY and WITH_ROUNDS, and the key material
of a half-round. -/

namespace Sys2Proof.Machine

/-- DEFAULT_ROUNDS (R5). -/
def defaultRounds : Word := 32#32

/-- `UsingKey()` of R62. -/
def usingKey (s : State) : State :=
  match s.keyOperand with
  | none => s.raiseFault .argUnwritten
  | some k => (s.setConfiguration k defaultRounds).finish .ok

/-- `WithRounds()` of R63. -/
def withRounds (s : State) : State :=
  if s.cfgValid = false then s.finish .notConfigured
  else
    match s.roundsOperand with
    | none => s.raiseFault .argUnwritten
    | some n => (s.setRounds n).finish .ok

/-- USING_KEY (R62), taken only while STATUS.FAULT = 0 (R98). -/
def execUsingKey (s : State) : Host.Outcome State Fault Refusal := .next (s.ifTaken usingKey)

/-- WITH_ROUNDS (R63), taken only while STATUS.FAULT = 0 (R98). -/
def execWithRounds (s : State) : Host.Outcome State Fault Refusal := .next (s.ifTaken withRounds)

/-- `selA(sum) = sum & 3`, the key word of the v0 half-round (R67). -/
def selA (sum : Word) : Fin 4 := Fin.ofNat 4 (sum &&& 3#32).toNat

/-- `selB(sum) = (sum >> 11) & 3`, the key word of the v1 half-round (R67). -/
def selB (sum : Word) : Fin 4 := Fin.ofNat 4 ((sum >>> 11) &&& 3#32).toNat

/-- `KA(sum) = sum + KEY[selA(sum)]` (R68). -/
def keyA (key : Key) (sum : Word) : Word := sum + key[selA sum]

/-- `KB(sum) = sum + KEY[selB(sum)]` (R68). -/
def keyB (key : Key) (sum : Word) : Word := sum + key[selB sum]

/-- The sum a decipher transform starts from: the low 32 bits of `ROUNDS * DELTA` (R66). -/
def decipherStartSum (delta rounds : Word) : Word := rounds * delta

end Sys2Proof.Machine
end

