-- ==== Sys2Proof/Machine/Feistel.lean ====
section
/-! DEFINITION. xtea_feistel_round (41_feistel_round.md): the mixing function and one round in either direction, pure
functions of the block, the running sum and KEY. -/

namespace Sys2Proof.Machine

/-- The two halves of a block, `v0` first (R14, R80). -/
structure Block where
  v0 : Word
  v1 : Word
deriving DecidableEq, Repr

/-- What one round takes and gives: the block and the running sum (R71, R72). -/
structure RoundState where
  v0 : Word
  v1 : Word
  sum : Word
deriving DecidableEq, Repr

/-- The mixing function `F(v) = (((v << 4) ^ (v >> 5)) + v)` (R70). -/
def mix (v : Word) : Word := ((v <<< 4) ^^^ (v >>> 5)) + v

/-- ER, the encipher round: the v1 half-round uses the new v0 and the new sum (R71). -/
def encipherRound (delta : Word) (key : Key) (x : RoundState) : RoundState :=
  let v0 := x.v0 + (mix x.v1 ^^^ keyA key x.sum)
  let sum := x.sum + delta
  let v1 := x.v1 + (mix v0 ^^^ keyB key sum)
  { v0 := v0, v1 := v1, sum := sum }

/-- DR, the decipher round: the v0 half-round uses the new v1 and the new sum (R72). -/
def decipherRound (delta : Word) (key : Key) (x : RoundState) : RoundState :=
  let v1 := x.v1 - (mix x.v0 ^^^ keyB key x.sum)
  let sum := x.sum - delta
  let v0 := x.v0 - (mix v1 ^^^ keyA key sum)
  { v0 := v0, v1 := v1, sum := sum }

end Sys2Proof.Machine
end

