-- ==== Sys2Proof/Machine/BlockEngine.lean ====
section
/-! DEFINITION. xtea_block_cipher_engine (42_block_engine.md): ROUNDS rounds over one block, in either direction. -/

namespace Sys2Proof.Machine

/-- `iterate(f, n, x)` of R13. -/
def iterate {α : Type} (f : α → α) : Nat → α → α
  | 0, x => x
  | n + 1, x => iterate f n (f x)

/-- EncipherBlock: ROUNDS encipher rounds from sum 0 (R75). Zero rounds run zero times (R78). -/
def encipherBlock (delta : Word) (key : Key) (rounds : Word) (b : Block) : Block :=
  let x := iterate (encipherRound delta key) rounds.toNat { v0 := b.v0, v1 := b.v1, sum := 0#32 }
  { v0 := x.v0, v1 := x.v1 }

/-- DecipherBlock: ROUNDS decipher rounds from sum `ROUNDS * DELTA` (R76). -/
def decipherBlock (delta : Word) (key : Key) (rounds : Word) (b : Block) : Block :=
  let x := iterate (decipherRound delta key) rounds.toNat
    { v0 := b.v0, v1 := b.v1, sum := decipherStartSum delta rounds }
  { v0 := x.v0, v1 := x.v1 }

end Sys2Proof.Machine
end

