-- ==== Sys2Proof/Machine/BufferIterator.lean ====
section
/-! DEFINITION. block_buffer_iterator (43_buffer_iterator.md): the meanings of ENCIPHER and DECIPHER over one shared
procedure. -/

namespace Sys2Proof.Machine

/-- The `dir` of R81. -/
inductive Direction where
  | enc
  | dec
deriving DecidableEq, Repr

/-- The block transform of a direction under the configuration held (R75, R76, R81). -/
def State.transform (s : State) : Direction → Block → Block
  | .enc, b => encipherBlock s.config.delta s.key s.rounds b
  | .dec, b => decipherBlock s.config.delta s.key s.rounds b

/-- The block at address `a`: v0 from bytes 0..3, v1 from bytes 4..7 (R38, R87). -/
def Memory.readBlock (o : ByteOrder) (m : Memory) (a : Nat) : Block :=
  { v0 := Memory.readWord o m a, v1 := Memory.readWord o m (a + 4) }

/-- A block written at address `a`: v0 to bytes 0..3, v1 to bytes 4..7 (R38, R87). -/
def Memory.writeBlock (o : ByteOrder) (m : Memory) (a : Nat) (b : Block) : Memory :=
  Memory.writeWord o (Memory.writeWord o m a b.v0) (a + 4) b.v1

/-- Blocks 0 .. n-1, in input order: block i at `src + 8i` goes through `f` to `dst + 8i` (R81, R86). Each block is
written before the next is read (DEDUCED, log 16, safe: R81 allows either order). -/
def transformBlocks (o : ByteOrder) (f : Block → Block) (src dst : Nat) : Nat → Memory → Memory
  | 0, m => m
  | n + 1, m =>
    let done := transformBlocks o f src dst n m
    Memory.writeBlock o done (dst + 8 * n) (f (Memory.readBlock o done (src + 8 * n)))

/-- `BufferOp(dir)` of R81: the checks in the order of R97, then every block, then OK. -/
def bufferOp (dir : Direction) (s : State) : State :=
  if s.cfgValid = false then s.finish .notConfigured
  else
    match s.bufferOperands with
    | none => s.raiseFault .argUnwritten
    | some o =>
      if o.len.toNat % 8 ≠ 0 then s.finish .invalidLength
      else if o.cap.toNat < o.len.toNat then s.finish .insufficientOutputCapacity
      else if ¬ admitted s.config.memSize o.src.toNat o.len.toNat
          ∨ ¬ admitted s.config.memSize o.dst.toNat o.len.toNat then s.raiseFault .bufferRange
      else if overlap o.src.toNat o.dst.toNat o.len.toNat then s.raiseFault .bufferOverlap
      else
        (s.setMem (transformBlocks s.config.byteOrder (s.transform dir) o.src.toNat o.dst.toNat
          (o.len.toNat / 8) s.mem)).finish .ok

/-- ENCIPHER (R90), taken only while STATUS.FAULT = 0 (R98). -/
def execEncipher (s : State) : Host.Outcome State Fault Refusal := .next (s.ifTaken (bufferOp .enc))

/-- DECIPHER (R91), taken only while STATUS.FAULT = 0 (R98). -/
def execDecipher (s : State) : Host.Outcome State Fault Refusal := .next (s.ifTaken (bufferOp .dec))

end Sys2Proof.Machine
end

