-- ==== Sys2Proof/Machine/Dispatch.lean ====
section
/-! DEFINITION. One arm per command (30_encoding.md R56). -/

namespace Sys2Proof.Machine

-- Every meaning answers a next state: no command of this hardware stops the model.
def exec (i : Instr) (s : State) : Host.Outcome State Fault Refusal :=
  match i with
  | .usingKey => Sys2Proof.Machine.execUsingKey s
  | .withRounds => Sys2Proof.Machine.execWithRounds s
  | .encipher => Sys2Proof.Machine.execEncipher s
  | .decipher => Sys2Proof.Machine.execDecipher s

end Sys2Proof.Machine
end

