-- ==== Sys2Proof/Machine/Flags.lean ====
section
/-! DEFINITION. STATUS: the result codes and the word the host reads (10_state.md R28, 60_exceptions.md R93). -/

namespace Sys2Proof.Machine

/-- The code of a result (R93). -/
def ResultCode.code : ResultCode → BitVec 4
  | .ok => 0#4
  | .invalidLength => 1#4
  | .insufficientOutputCapacity => 2#4
  | .notConfigured => 3#4
  | .illegalCommand => 4#4
  | .bufferRange => 5#4
  | .bufferOverlap => 6#4
  | .argUnwritten => 7#4

/-- The codes of kind *fault* in R93: 5, 6 and 7. -/
def ResultCode.isFault : ResultCode → Bool
  | .bufferRange => true
  | .bufferOverlap => true
  | .argUnwritten => true
  | .ok => false
  | .invalidLength => false
  | .insufficientOutputCapacity => false
  | .notConfigured => false
  | .illegalCommand => false

/-- A flag as a word. -/
def flagWord (b : Bool) : Word := if b then 1#32 else 0#32

/-- What a read of STATUS returns: `zext_32(RESULT) + (CFG_VALID << 8) + (FAULT << 9)` (R28). -/
def State.statusWord (s : State) : Word :=
  s.result.code.setWidth 32 + (flagWord s.cfgValid <<< 8) + (flagWord s.fault <<< 9)

end Sys2Proof.Machine
end

