-- ==== Sys2Proof/WellFormed.lean ====
section
/-! DEFINITION. Which terms of the syntax have a meaning. A command has no operand, so each of the four is well formed
(30_encoding.md R55); a host access to the register block must be a whole aligned word inside the block (10_state.md R19),
a host access to MEM must name a byte that exists (20_memory.md R35). -/

namespace Sys2Proof

/-- Every command is well formed: it has no field (R55). -/
def Instr.wellFormed : Instr → Bool
  | .usingKey => true
  | .withRounds => true
  | .encipher => true
  | .decipher => true

namespace Machine

/-- The access is 4 bytes wide (R19). -/
abbrev accessIsWord (bytes : Nat) : Prop := bytes = 4

/-- The access is inside the eight words at REG_BASE (R18, R19). A host address is a natural number, and one below
REG_BASE is outside (DESIGN CHOICE, log 15, safe). -/
abbrev accessInBlock (c : Config) (addr : Nat) : Prop := c.regBase ≤ addr ∧ addr < c.regBase + 0x20

/-- The access is at an offset that is a multiple of 4 (R19). -/
abbrev accessIsAligned (c : Config) (addr : Nat) : Prop := (addr - c.regBase) % 4 = 0

/-- The three demands of R19 together. -/
abbrev accessWf (c : Config) (addr bytes : Nat) : Prop :=
  accessIsWord bytes ∧ accessInBlock c addr ∧ accessIsAligned c addr

/-- A host operation that has a meaning. -/
abbrev HostOp.wf (c : Config) : HostOp → Prop
  | .busWrite addr bytes _ => accessWf c addr bytes
  | .busRead addr bytes => accessWf c addr bytes
  | .memWrite addr _ => addr.toNat < c.memSize
  | .memRead addr => addr.toNat < c.memSize
  | .reset => True

end Machine
end Sys2Proof
end

