-- ==== Sys2Proof/Machine/Bus.lean ====
section
/-! DEFINITION. What each host operation does (10_state.md R18, R19, R21, R22, R27, R28; 30_encoding.md R56, R60;
20_memory.md R35, R48), and the machine's step as one host operation (R47). -/

namespace Sys2Proof.Machine

/-- `CommandStep(w)` of R56: an illegal word writes ILLEGAL_COMMAND when commands are taken (R57, R98), a legal one is
its command. -/
def commandStep (w : Word) (s : State) : Host.Outcome State Fault Refusal :=
  match decode w with
  | .error _ => .next (s.ifTaken (fun s => s.finish .illegalCommand))
  | .ok i => exec i s

/-- The register at a word offset of the block (R18). -/
def regAtOffset (offset : Nat) : Reg :=
  match offset with
  | 0x00 => .arg 0
  | 0x04 => .arg 1
  | 0x08 => .arg 2
  | 0x0C => .arg 3
  | 0x10 => .cmd
  | 0x14 => .status
  | 0x18 => .reserved 0
  | _ => .reserved 1

/-- The offset of a register (R18). -/
def Reg.offset : Reg → Nat
  | .arg n => 4 * n.val
  | .cmd => 0x10
  | .status => 0x14
  | .reserved n => 0x18 + 4 * n.val

/-- The register a host access reaches, or the refusal of R19. Where several of its demands fail at once, width is
named before place, place before alignment (DESIGN CHOICE, log 11, safe). -/
def registerAt (c : Config) (addr bytes : Nat) : Except Refusal Reg :=
  if ¬ accessIsWord bytes then .error .accessNotWord
  else if ¬ accessInBlock c addr then .error .accessOutsideBlock
  else if ¬ accessIsAligned c addr then .error .accessMisaligned
  else .ok (regAtOffset (addr - c.regBase))

/-- A host write of a register: ARG takes the value (R21), CMD issues a command (R27), STATUS and the reserved words
ignore it (R18, R28). -/
def writeReg (r : Reg) (v : Word) (s : State) : Host.Outcome State Fault Refusal :=
  match r with
  | .arg n => .next (s.setArg n v)
  | .cmd => commandStep v s
  | .status => .next s
  | .reserved _ => .next s

/-- A host read of a register: ARG returns its value, or a draw while it is unwritten (R22); CMD and the reserved words
read 0 (R18, R27); STATUS reads its word (R28). -/
def readReg (r : Reg) (s : State) : State :=
  match r with
  | .arg n =>
    match s.arg[n] with
    | some v => s.reply (.word v)
    | none => s.replyDraw
  | .cmd => s.reply (.word 0#32)
  | .status => s.reply (.word s.statusWord)
  | .reserved _ => s.reply (.word 0#32)

/-- One host operation, as one atomic step (R47, R60). -/
def hostOp (op : HostOp) (s : State) : Host.Outcome State Fault Refusal :=
  match op with
  | .busWrite addr bytes data =>
    match registerAt s.config addr bytes with
    | .error e => .refused e
    | .ok r => writeReg r data s
  | .busRead addr bytes =>
    match registerAt s.config addr bytes with
    | .error e => .refused e
    | .ok r => .next (readReg r s)
  | .memWrite addr data =>
    if addr.toNat < s.config.memSize then .next (s.setMem (Memory.write s.mem addr.toNat data))
    else .fault .noSuchMemoryByte
  | .memRead addr =>
    if addr.toNat < s.config.memSize then .next (s.reply (.byte (Memory.read s.mem addr.toNat)))
    else .fault .noSuchMemoryByte
  | .reset => .next s.hostReset

/-- One step: the host's next operation. With none pending the engine is idle and keeps its state (R108, R110). -/
def hostStep (s : State) : Host.Outcome State Fault Refusal :=
  match s.host.ops with
  | [] => .next s
  | op :: rest => hostOp op (s.setOps rest)

/-- The host operation `wr REG, v` (R60). -/
def busWr (c : Config) (r : Reg) (v : Word) : HostOp := .busWrite (c.regBase + r.offset) 4 v

/-- The host operation `rd REG` (R60). -/
def busRd (c : Config) (r : Reg) : HostOp := .busRead (c.regBase + r.offset) 4

/-- The state with `wr CMD, w` as the host's next operation (R60; log 1). -/
def State.pushCommand (s : State) (w : Word) : State := s.setOps (busWr s.config .cmd w :: s.host.ops)

end Sys2Proof.Machine
end

