-- ==== Sys2Proof/Machine/Step.lean ====
section
/-! DEFINITION. The step of the machine (20_memory.md R47) and the placing of one command for it. -/

namespace Sys2Proof.Machine

/-- One step is one host operation, or idling. -/
def step (s : State) : Host.Outcome State Fault Refusal := Sys2Proof.Machine.hostStep s

/-- `s` with the command of the table's word `w` as the host's next operation (log 1). -/
def State.withFetchWord (s : State) (nbits w : Nat) : State :=
  Sys2Proof.Machine.State.pushCommand s (Sys2Proof.tableWord nbits w)

end Sys2Proof.Machine
end

