-- ==== Sys2Proof/Machine/Assembler.lean ====
section
/-! DEFINITION. The assembler's pseudo-instructions and their expansions (30_encoding.md R60, R61). -/

namespace Sys2Proof.Machine

/-- The pseudo-instructions of R61. -/
inductive Pseudo where
  /-- `cmd NAME`. -/
  | cmd (i : Instr)
  /-- `using_key k0, k1, k2, k3`. -/
  | usingKey (k0 k1 k2 k3 : Word)
  /-- `with_rounds n`. -/
  | withRounds (n : Word)
  /-- `encipher src, dst, len, cap`. -/
  | encipher (src dst len cap : Word)
  /-- `decipher src, dst, len, cap`. -/
  | decipher (src dst len cap : Word)
deriving DecidableEq, Repr

/-- The four ARG writes, in order, then one command. -/
def writesThenCommand (c : Config) (a0 a1 a2 a3 : Word) (i : Instr) : List HostOp :=
  [busWr c (.arg 0) a0, busWr c (.arg 1) a1, busWr c (.arg 2) a2, busWr c (.arg 3) a3, busWr c .cmd (encode i)]

/-- The expansion of a pseudo-instruction (R61). -/
def Pseudo.expand (c : Config) : Pseudo → List HostOp
  | .cmd i => [busWr c .cmd (encode i)]
  | .usingKey k0 k1 k2 k3 => writesThenCommand c k0 k1 k2 k3 .usingKey
  | .withRounds n => [busWr c (.arg 0) n, busWr c .cmd (encode .withRounds)]
  | .encipher src dst len cap => writesThenCommand c src dst len cap .encipher
  | .decipher src dst len cap => writesThenCommand c src dst len cap .decipher

/-- The command a pseudo-instruction issues last. -/
def Pseudo.instr : Pseudo → Instr
  | .cmd i => i
  | .usingKey _ _ _ _ => .usingKey
  | .withRounds _ => .withRounds
  | .encipher _ _ _ _ => .encipher
  | .decipher _ _ _ _ => .decipher

/-- The ARG registers as the command of a pseudo-instruction finds them. -/
def Pseudo.args (arg : Vector (Option Word) 4) : Pseudo → Vector (Option Word) 4
  | .cmd _ => arg
  | .usingKey k0 k1 k2 k3 => #v[some k0, some k1, some k2, some k3]
  | .withRounds n => #v[some n, arg[1], arg[2], arg[3]]
  | .encipher src dst len cap => #v[some src, some dst, some len, some cap]
  | .decipher src dst len cap => #v[some src, some dst, some len, some cap]

end Sys2Proof.Machine
end

