-- ==== Sys2Proof/Safety.lean ====
section
/-! DEFINITION. What claims about this machine say: the invariant of its states, a correct end of a run, and what of a
state the host can tell. -/

namespace Sys2Proof.Machine

/-- FAULT is 1 exactly when RESULT is the code of a fault (R94, R95, R98). -/
abbrev State.faultMatchesResult (s : State) : Prop := s.fault = s.result.isFault

/-- A configuration is held only once every ARG register has been written (R62: USING_KEY needs all four;
R21: only reset makes one unwritten). -/
abbrev State.configuredArgsWritten (s : State) : Prop :=
  s.cfgValid = true → ∀ n : Fin 4, s.arg[n] ≠ none

/-- The invariant of the machine: MEM is in its canonical form and holds no byte at or above MEM_SIZE, FAULT and RESULT
agree, and a configured machine has every ARG register written. -/
structure State.Inv (s : State) : Prop where
  memWf : Memory.wf s.mem
  memWithin : Memory.within s.config.memSize s.mem
  faultMatchesResult : s.faultMatchesResult
  configuredArgsWritten : s.configuredArgsWritten

/-- A run is correct at its end only if STATUS.FAULT = 0 (R112). -/
abbrev State.correctEnd (s : State) : Prop := s.fault = false

/-- The state with KEY and ROUNDS covered up while no configuration is held: all that anything can depend on before the
first USING_KEY (R24, R25, R29). -/
def State.observable (s : State) : State :=
  if s.cfgValid then s else { s with key := #v[0#32, 0#32, 0#32, 0#32], rounds := 0#32 }

/-- What is observed at the end of a run (R112): MEM, the word of STATUS, and the values the host's reads returned. -/
def State.observation (s : State) : Memory × Word × List Reply := (s.mem, s.statusWord, s.host.replies)

/-- An outcome with its next state seen through `f`. -/
def mapNext (f : State → State) : Host.Outcome State Fault Refusal → Host.Outcome State Fault Refusal
  | .next s => .next (f s)
  | .fault r => .fault r
  | .refused r => .refused r

/-- The step does not raise reset: its operation, if there is one, is another. -/
abbrev State.nextOpNotReset (s : State) : Prop := s.host.ops.head? ≠ some .reset

/-- The next operation of the host is a write of one of the words `ws` to CMD (R27). -/
abbrev State.nextOpIsCommand (s : State) (ws : List Word) : Prop :=
  ∃ w ∈ ws, s.host.ops.head? = some (busWr s.config .cmd w)

/-- The command of a direction (R90, R91). -/
def Direction.command : Direction → Instr
  | .enc => .encipher
  | .dec => .decipher

/-- Steps 1 to 8 of R97 let ENCIPHER or DECIPHER through: the engine is not faulted and is configured, the four operands
are written, and the length, capacity, range and overlap checks pass. -/
structure State.BufferReady (s : State) (src dst len cap : Word) : Prop where
  notFaulted : s.fault = false
  configured : s.cfgValid = true
  written : s.arg = #v[some src, some dst, some len, some cap]
  lenOk : len.toNat % 8 = 0
  capOk : len.toNat ≤ cap.toNat
  srcAdmitted : len.toNat = 0 ∨ src.toNat + len.toNat ≤ s.config.memSize
  dstAdmitted : len.toNat = 0 ∨ dst.toNat + len.toNat ≤ s.config.memSize
  apart : ¬ (0 < len.toNat ∧ src.toNat < dst.toNat + len.toNat ∧ dst.toNat < src.toNat + len.toNat)

/-- The number in an operand register, 0 while it is unwritten. -/
def State.argNat (s : State) (n : Fin 4) : Nat :=
  match s.arg[n] with
  | some v => v.toNat
  | none => 0

/-- Steps 2 to 8 of the table of R97, in its order: a condition on the command word and the state, and its outcome. -/
def checkTable (w : Word) (s : State) : List (Bool × ResultCode) :=
  let buffer : Bool := decide (w = 3#32 ∨ w = 4#32)
  [ (decide (w ≠ 1#32 ∧ w ≠ 2#32 ∧ w ≠ 3#32 ∧ w ≠ 4#32), .illegalCommand),
    (decide (w ≠ 1#32 ∧ s.cfgValid = false), .notConfigured),
    (decide (s.arg[0] = none ∨ (w ≠ 2#32 ∧ (s.arg[1] = none ∨ s.arg[2] = none ∨ s.arg[3] = none))), .argUnwritten),
    (buffer && decide (s.argNat 2 % 8 ≠ 0), .invalidLength),
    (buffer && decide (s.argNat 3 < s.argNat 2), .insufficientOutputCapacity),
    (buffer && decide (¬ (admitted s.config.memSize (s.argNat 0) (s.argNat 2) ∧
      admitted s.config.memSize (s.argNat 1) (s.argNat 2))), .bufferRange),
    (buffer && decide (overlap (s.argNat 0) (s.argNat 1) (s.argNat 2)), .bufferOverlap) ]

/-- The first row that applies decides the outcome; when none does, it is OK (R97). -/
def checkOutcome (w : Word) (s : State) : ResultCode :=
  match (checkTable w s).find? (fun row => row.1) with
  | some row => row.2
  | none => .ok

end Sys2Proof.Machine
end

