-- ==== Sys2Proof/Certificates/Slice0/Obligations.lean ====
section
/-! DEFINITION. The statements about this machine, from the numbered rules of spec/. -/

open Sys2Proof Sys2Proof.Machine

/-! ## Encoding (30_encoding.md) -/

/-- The words of the opcode map (section 1 of 30_encoding.md), and words beside them that are illegal. -/
def Obligations.CommandWordsDecode : Prop :=
  decode 0x00000001#32 = .ok .usingKey ∧ decode 0x00000002#32 = .ok .withRounds ∧
  decode 0x00000003#32 = .ok .encipher ∧ decode 0x00000004#32 = .ok .decipher ∧
  decode 0x00000000#32 = .error (.opUnassigned 0#4) ∧ decode 0x00000005#32 = .error (.opUnassigned 5#4) ∧
  decode 0x0000000F#32 = .error (.opUnassigned 15#4) ∧ decode 0x00000013#32 = .error .mustBeZeroSet ∧
  decode 0x80000003#32 = .error .mustBeZeroSet

/-- R54, R58: a word decodes to a command exactly when it is that command's word, all 32 bits of it; every other word is
illegal. -/
def Obligations.DecodeEncodeAgree : Prop :=
  (∀ (w : Word) (i : Instr), decode w = .ok i ↔ w = encode i) ∧
  (∀ i : Instr, encode i =
    match i with
    | .usingKey => 0x00000001#32
    | .withRounds => 0x00000002#32
    | .encipher => 0x00000003#32
    | .decipher => 0x00000004#32) ∧
  (∀ w : Word, (∀ i : Instr, w ≠ encode i) → ∃ e, decode w = .error e)

/-- R57: a word with a bit of [31:4] set, or OP 0x0 or 0x5 .. 0xF, written to CMD while FAULT is 0, sets RESULT to
ILLEGAL_COMMAND and changes nothing else; every other word is a command. -/
def Obligations.IllegalWordSetsResultOnly : Prop :=
  ∀ w : Word,
    ((w.extractLsb' 4 28 ≠ 0#28 ∨ (w.extractLsb' 0 4).toNat = 0 ∨ 5 ≤ (w.extractLsb' 0 4).toNat) →
      ∀ (s : State) (rest : List HostOp), s.fault = false → s.host.ops = busWr s.config .cmd w :: rest →
        step s = .next { s.setOps rest with result := .illegalCommand }) ∧
    (¬ (w.extractLsb' 4 28 ≠ 0#28 ∨ (w.extractLsb' 0 4).toNat = 0 ∨ 5 ≤ (w.extractLsb' 0 4).toNat) →
      ∃ i, decode w = .ok i)

/-! ## The step (20_memory.md R47, 30_encoding.md R56, R60) -/

/-- When the host's next operation writes a command's word to CMD, at REG_BASE + 0x10, the step is that command, with the
operation taken off the host's list (log 1). -/
def Obligations.StepRunsDecodedCommand : Prop :=
  ∀ (s : State) (w : Word) (i : Instr) (rest : List HostOp),
    s.host.ops = .busWrite (s.config.regBase + 0x10) 4 w :: rest → decode w = .ok i →
    step s = exec i (s.setOps rest)

/-- R108: with no host operation pending the engine is idle and keeps its state. -/
def Obligations.IdleEngineKeepsState : Prop :=
  ∀ s : State, s.host.ops = [] → step s = .next s

/-- R56, R100: every word written to CMD, in every state, ends in a next state, and the host's side is as it was. -/
def Obligations.EveryCommandWordEnds : Prop :=
  ∀ (w : Word) (s : State), ∃ t, commandStep w s = .next t ∧ t.host = s.host ∧ t.arg = s.arg ∧ t.config = s.config

/-- R61: a pseudo-instruction expands to exactly its listed writes, in order; and those host operations, run one a step, are the
ARG writes and then the command it names. -/
def Obligations.PseudoInstructionExpands : Prop :=
  (∀ (c : Config) (i : Instr), Pseudo.expand c (.cmd i) = [.busWrite (c.regBase + 0x10) 4 (encode i)]) ∧
  (∀ (c : Config) (k0 k1 k2 k3 : Word), Pseudo.expand c (.usingKey k0 k1 k2 k3) =
    [.busWrite (c.regBase + 0x00) 4 k0, .busWrite (c.regBase + 0x04) 4 k1, .busWrite (c.regBase + 0x08) 4 k2,
     .busWrite (c.regBase + 0x0C) 4 k3, .busWrite (c.regBase + 0x10) 4 0x00000001#32]) ∧
  (∀ (c : Config) (n : Word), Pseudo.expand c (.withRounds n) =
    [.busWrite (c.regBase + 0x00) 4 n, .busWrite (c.regBase + 0x10) 4 0x00000002#32]) ∧
  (∀ (c : Config) (src dst len cap : Word), Pseudo.expand c (.encipher src dst len cap) =
    [.busWrite (c.regBase + 0x00) 4 src, .busWrite (c.regBase + 0x04) 4 dst, .busWrite (c.regBase + 0x08) 4 len,
     .busWrite (c.regBase + 0x0C) 4 cap, .busWrite (c.regBase + 0x10) 4 0x00000003#32]) ∧
  (∀ (c : Config) (src dst len cap : Word), Pseudo.expand c (.decipher src dst len cap) =
    [.busWrite (c.regBase + 0x00) 4 src, .busWrite (c.regBase + 0x04) 4 dst, .busWrite (c.regBase + 0x08) 4 len,
     .busWrite (c.regBase + 0x0C) 4 cap, .busWrite (c.regBase + 0x10) 4 0x00000004#32]) ∧
  (∀ (p : Pseudo) (s : State) (rest : List HostOp), s.host.ops = p.expand s.config ++ rest →
    (Host.Core.run Sys2Proof.core (p.expand s.config).length s : Host.Outcome State Fault Refusal) =
      exec p.instr { s.setOps rest with arg := p.args s.arg })

/-! ## USING_KEY and WITH_ROUNDS (40_key_schedule.md) -/

/-- R62: USING_KEY with the four operand registers written loads KEY, sets ROUNDS to 32 and CFG_VALID to 1 and ends with OK,
writing nothing else; with one unwritten it faults and writes nothing else. -/
def Obligations.UsingKeyLoadsConfiguration : Prop :=
  ∀ s : State, s.fault = false →
    (∀ k0 k1 k2 k3 : Word, s.arg = #v[some k0, some k1, some k2, some k3] →
      exec .usingKey s =
        .next { s with key := #v[k0, k1, k2, k3], rounds := 32#32, cfgValid := true, result := .ok }) ∧
    ((∃ n : Fin 4, s.arg[n] = none) →
      exec .usingKey s = .next { s with fault := true, result := .argUnwritten })

/-- R63: WITH_ROUNDS without a configuration ends with NOT_CONFIGURED; with one, it sets ROUNDS to ARG0, whatever the value,
and ends with OK, or faults when ARG0 is unwritten; it reads no other operand and writes nothing else. -/
def Obligations.WithRoundsSetsRounds : Prop :=
  ∀ s : State, s.fault = false →
    (s.cfgValid = false → exec .withRounds s = .next { s with result := .notConfigured }) ∧
    (s.cfgValid = true → ∀ n : Word, s.arg[0] = some n →
      exec .withRounds s = .next { s with rounds := n, result := .ok }) ∧
    (s.cfgValid = true → s.arg[0] = none →
      exec .withRounds s = .next { s with fault := true, result := .argUnwritten })

/-- The frame of USING_KEY and WITH_ROUNDS (20_memory.md section 1, 10_state.md sections 3 and 5): ARG, every byte of MEM,
the parameters and the host's side are as before, and WITH_ROUNDS leaves KEY and CFG_VALID. -/
def Obligations.ConfigurationCommandsFrame : Prop :=
  ∀ (i : Instr) (s t : State), i = .usingKey ∨ i = .withRounds → exec i s = .next t →
    t.arg = s.arg ∧ t.mem = s.mem ∧ (∀ a, Memory.read t.mem a = Memory.read s.mem a) ∧
    t.config = s.config ∧ t.host = s.host ∧
    (i = .withRounds → t.key = s.key ∧ t.cfgValid = s.cfgValid) ∧
    (t.result ≠ .ok → t.key = s.key ∧ t.rounds = s.rounds ∧ t.cfgValid = s.cfgValid)

/-- R29: CFG_VALID is 0 after reset, USING_KEY sets it, no command clears it, and while it is 0 the other three commands end
with NOT_CONFIGURED and change nothing else. -/
def Obligations.CfgValidGatesCommands : Prop :=
  State.reset.cfgValid = false ∧
  (∀ (s : State) (k0 k1 k2 k3 : Word), s.fault = false → s.arg = #v[some k0, some k1, some k2, some k3] →
    ∃ t, exec .usingKey s = .next t ∧ t.cfgValid = true) ∧
  (∀ (w : Word) (s t : State), commandStep w s = .next t → s.cfgValid = true → t.cfgValid = true) ∧
  (∀ s t : State, step s = .next t → s.cfgValid = true → t.cfgValid = false → s.host.ops.head? = some .reset) ∧
  (∀ (i : Instr) (s : State), i = .withRounds ∨ i = .encipher ∨ i = .decipher → s.fault = false → s.cfgValid = false →
    exec i s = .next { s with result := .notConfigured })

/-! ## The key schedule and the rounds (40_key_schedule.md, 41_feistel_round.md, 42_block_engine.md) -/

/-- R67: selA(sum) is sum & 3, the field sum[1:0], and selB(sum) is (sum >> 11) & 3, the field sum[12:11]. -/
def Obligations.KeySelectorsAreFields : Prop :=
  ∀ sum : Word,
    BitVec.ofNat 32 (selA sum).val = sum &&& 3#32 ∧ (selA sum).val = (sum.extractLsb' 0 2).toNat ∧
    BitVec.ofNat 32 (selB sum).val = (sum >>> 11) &&& 3#32 ∧ (selB sum).val = (sum.extractLsb' 11 2).toNat

/-- R71, R72: one round in either direction is the three lines of the source, each line using what the one before gave. -/
def Obligations.RoundsFollowSourceLines : Prop :=
  ∀ (delta : Word) (key : Key) (v0 v1 sum : Word),
    (let a := v0 + ((((v1 <<< 4) ^^^ (v1 >>> 5)) + v1) ^^^ (sum + key.toList.getD (sum &&& 3#32).toNat 0#32))
     let s := sum + delta
     let b := v1 + ((((a <<< 4) ^^^ (a >>> 5)) + a) ^^^ (s + key.toList.getD ((s >>> 11) &&& 3#32).toNat 0#32))
     encipherRound delta key { v0 := v0, v1 := v1, sum := sum } = { v0 := a, v1 := b, sum := s }) ∧
    (let b := v1 - ((((v0 <<< 4) ^^^ (v0 >>> 5)) + v0) ^^^ (sum + key.toList.getD ((sum >>> 11) &&& 3#32).toNat 0#32))
     let s := sum - delta
     let a := v0 - ((((b <<< 4) ^^^ (b >>> 5)) + b) ^^^ (s + key.toList.getD (s &&& 3#32).toNat 0#32))
     decipherRound delta key { v0 := v0, v1 := v1, sum := sum } = { v0 := a, v1 := b, sum := s })

/-- 40_key_schedule.md, last sentences of section 3, which the spec marks as derived from its own rules: with
DELTA = 0x9E3779B9 selA(s_j) = j mod 4 for every j, and the selector pairs of the first 32 rounds are those listed. -/
def Obligations.SelectorSequence : Prop :=
  (∀ j : Nat, (selA (BitVec.ofNat 32 j * 0x9E3779B9#32)).val = j % 4) ∧
  (List.range 32).map (fun j => ((selA (BitVec.ofNat 32 j * 0x9E3779B9#32)).val,
      (selB (BitVec.ofNat 32 (j + 1) * 0x9E3779B9#32)).val)) =
    [(0, 3), (1, 2), (2, 1), (3, 0), (0, 0), (1, 3), (2, 2), (3, 1), (0, 0), (1, 0), (2, 3), (3, 2), (0, 1), (1, 1),
     (2, 0), (3, 3), (0, 2), (1, 1), (2, 1), (3, 0), (0, 3), (1, 2), (2, 1), (3, 1), (0, 0), (1, 3), (2, 2), (3, 2),
     (0, 1), (1, 0), (2, 3), (3, 2)]

/-- R65: in the encipher direction the sum of every block starts at 0 and goes up by DELTA once a round, between the halves: at the
start of round j it is j * DELTA, the round's v0 half sees it and its v1 half sees (j + 1) * DELTA. The last clauses say so of
EncipherBlock itself: no round gives the block back, and one round more is one ER of its result at the sum `rounds * delta`. -/
def Obligations.EncipherSumSchedule : Prop :=
  ∀ (delta : Word) (key : Key) (b : Block),
    (∀ j : Nat,
      let start : RoundState := { v0 := b.v0, v1 := b.v1, sum := 0#32 }
      let x := iterate (encipherRound delta key) j start
      let y := iterate (encipherRound delta key) (j + 1) start
      x.sum = BitVec.ofNat 32 j * delta ∧
      y.v0 = x.v0 + (mix x.v1 ^^^ keyA key (BitVec.ofNat 32 j * delta)) ∧
      y.v1 = x.v1 + (mix y.v0 ^^^ keyB key (BitVec.ofNat 32 (j + 1) * delta)) ∧
      y.sum = BitVec.ofNat 32 (j + 1) * delta) ∧
    encipherBlock delta key 0#32 b = b ∧
    (∀ rounds : Word, rounds.toNat + 1 < 2 ^ 32 →
      let c := encipherBlock delta key rounds b
      let y := encipherRound delta key { v0 := c.v0, v1 := c.v1, sum := rounds * delta }
      encipherBlock delta key (rounds + 1#32) b = { v0 := y.v0, v1 := y.v1 })

/-- R66: in the decipher direction the sum starts at ROUNDS * DELTA, the low 32 bits, and goes down by DELTA once a round,
between the halves: after j rounds it is (ROUNDS - j) * DELTA, the next v1 half sees it and the next v0 half sees the sum below
it, so the round that undoes encipher round j sees s_(j+1) and then s_j. The last clauses say so of DecipherBlock itself: no round
gives the block back, and with one round more its first DR runs at the sum `(rounds + 1) * delta`, the other rounds after it. -/
def Obligations.DecipherSumSchedule : Prop :=
  ∀ (delta : Word) (key : Key) (b : Block),
    (∀ (rounds : Word) (j : Nat), j < rounds.toNat →
      let start : RoundState := { v0 := b.v0, v1 := b.v1, sum := decipherStartSum delta rounds }
      let x := iterate (decipherRound delta key) j start
      let y := iterate (decipherRound delta key) (j + 1) start
      start.sum.toNat = rounds.toNat * delta.toNat % 2 ^ 32 ∧
      x.sum = BitVec.ofNat 32 (rounds.toNat - j) * delta ∧
      y.v1 = x.v1 - (mix x.v0 ^^^ keyB key (BitVec.ofNat 32 (rounds.toNat - j) * delta)) ∧
      y.v0 = x.v0 - (mix y.v1 ^^^ keyA key (BitVec.ofNat 32 (rounds.toNat - (j + 1)) * delta)) ∧
      y.sum = BitVec.ofNat 32 (rounds.toNat - (j + 1)) * delta) ∧
    decipherBlock delta key 0#32 b = b ∧
    (∀ rounds : Word, rounds.toNat + 1 < 2 ^ 32 →
      let y := decipherRound delta key { v0 := b.v0, v1 := b.v1, sum := (rounds + 1#32) * delta }
      decipherBlock delta key (rounds + 1#32) b = decipherBlock delta key rounds { v0 := y.v0, v1 := y.v1 })

/-- R75, R76: EncipherBlock is ROUNDS rounds ER from sum 0, DecipherBlock is ROUNDS rounds DR from the low 32 bits of ROUNDS * DELTA,
each round on what the one before gave, and both return the halves the last one leaves. `x j` is what the loop holds before its
round j. -/
def Obligations.BlockTransformsRunRounds : Prop :=
  ∀ (delta : Word) (key : Key) (rounds : Word) (b : Block) (x : Nat → RoundState),
    (x 0 = { v0 := b.v0, v1 := b.v1, sum := 0#32 } → (∀ j < rounds.toNat, x (j + 1) = encipherRound delta key (x j)) →
      encipherBlock delta key rounds b = { v0 := (x rounds.toNat).v0, v1 := (x rounds.toNat).v1 }) ∧
    (x 0 = { v0 := b.v0, v1 := b.v1, sum := BitVec.ofNat 32 (rounds.toNat * delta.toNat) } →
      (∀ j < rounds.toNat, x (j + 1) = decipherRound delta key (x j)) →
      decipherBlock delta key rounds b = { v0 := (x rounds.toNat).v0, v1 := (x rounds.toNat).v1 })

/-- 41_feistel_round.md section 3, which the spec marks as derived: DR undoes ER and ER undoes DR under the same KEY. -/
def Obligations.RoundsAreInverse : Prop :=
  ∀ (delta : Word) (key : Key) (x : RoundState),
    decipherRound delta key (encipherRound delta key x) = x ∧ encipherRound delta key (decipherRound delta key x) = x

/-- 42_block_engine.md section 2, which the spec marks as derived: for every KEY, every ROUNDS and every block the two block
transforms are inverse, both ways. -/
def Obligations.BlockRoundTrip : Prop :=
  ∀ (delta : Word) (key : Key) (rounds : Word) (b : Block),
    decipherBlock delta key rounds (encipherBlock delta key rounds b) = b ∧
    encipherBlock delta key rounds (decipherBlock delta key rounds b) = b

/-- R78: with ROUNDS = 0 both transforms are the identity on every block. -/
def Obligations.ZeroRoundsIdentity : Prop :=
  ∀ (delta : Word) (key : Key) (b : Block),
    encipherBlock delta key 0#32 b = b ∧ decipherBlock delta key 0#32 b = b

/-! ## ENCIPHER and DECIPHER (43_buffer_iterator.md, 20_memory.md) -/

/-- R86 for ENCIPHER: when every check passes it ends with OK, writes no register but RESULT, block i of the input goes through
EncipherBlock to block i of the output for every i, and every byte outside the output range reads as before. -/
def Obligations.EncipherTransformsEveryBlock : Prop :=
  ∀ (s : State) (src dst len cap : Word), Memory.wf s.mem → s.BufferReady src dst len cap →
    ∃ t, exec .encipher s = .next t ∧ t = { s with mem := t.mem, result := .ok } ∧
      (∀ i < len.toNat / 8,
        Memory.readBlock s.config.byteOrder t.mem (dst.toNat + 8 * i) =
          encipherBlock s.config.delta s.key s.rounds
            (Memory.readBlock s.config.byteOrder s.mem (src.toNat + 8 * i))) ∧
      (∀ a, a < dst.toNat ∨ dst.toNat + len.toNat ≤ a → Memory.read t.mem a = Memory.read s.mem a)

/-- R86 for DECIPHER: as ENCIPHER, through DecipherBlock. -/
def Obligations.DecipherTransformsEveryBlock : Prop :=
  ∀ (s : State) (src dst len cap : Word), Memory.wf s.mem → s.BufferReady src dst len cap →
    ∃ t, exec .decipher s = .next t ∧ t = { s with mem := t.mem, result := .ok } ∧
      (∀ i < len.toNat / 8,
        Memory.readBlock s.config.byteOrder t.mem (dst.toNat + 8 * i) =
          decipherBlock s.config.delta s.key s.rounds
            (Memory.readBlock s.config.byteOrder s.mem (src.toNat + 8 * i))) ∧
      (∀ a, a < dst.toNat ∨ dst.toNat + len.toNat ≤ a → Memory.read t.mem a = Memory.read s.mem a)

/-- R87: in the spec's byte order v0 is the big-endian word of bytes 0..3 of the input block and v1 of bytes 4..7, and byte k of
the output block is the k-th byte of w0 then w1, most significant first. -/
def Obligations.BlockBytesBigEndian : Prop :=
  ∀ (dir : Direction) (s t : State) (src dst len cap : Word), Memory.wf s.mem → s.config.byteOrder = .be →
    s.BufferReady src dst len cap → exec dir.command s = .next t → ∀ i < len.toNat / 8,
      let byteIn := fun k => Memory.read s.mem (src.toNat + 8 * i + k)
      let byteOut := fun k => Memory.read t.mem (dst.toNat + 8 * i + k)
      let w := s.transform dir
        { v0 := byteIn 0 ++ byteIn 1 ++ byteIn 2 ++ byteIn 3, v1 := byteIn 4 ++ byteIn 5 ++ byteIn 6 ++ byteIn 7 }
      byteOut 0 = w.v0.extractLsb' 24 8 ∧ byteOut 1 = w.v0.extractLsb' 16 8 ∧
      byteOut 2 = w.v0.extractLsb' 8 8 ∧ byteOut 3 = w.v0.extractLsb' 0 8 ∧
      byteOut 4 = w.v1.extractLsb' 24 8 ∧ byteOut 5 = w.v1.extractLsb' 16 8 ∧
      byteOut 6 = w.v1.extractLsb' 8 8 ∧ byteOut 7 = w.v1.extractLsb' 0 8

/-- 20_memory.md section 2: with BYTE_ORDER = LE a word at address a is read with its last byte most significant and written
with its least significant byte first. -/
def Obligations.WordBytesLittleEndian : Prop :=
  ∀ (m : Memory) (a : Nat) (v : Word), Memory.wf m →
    Memory.readWord .le m a =
      Memory.read m (a + 3) ++ Memory.read m (a + 2) ++ Memory.read m (a + 1) ++ Memory.read m a ∧
    (∀ k < 4, Memory.read (Memory.writeWord .le m a v) (a + k) = v.extractLsb' (8 * k) 8) ∧
    (∀ b, b < a ∨ a + 4 ≤ b → Memory.read (Memory.writeWord .le m a v) b = Memory.read m b)

/-- R82, R84: a length that is no multiple of 8 ends ENCIPHER and DECIPHER with INVALID_LENGTH whatever the capacity, and a
length that is one, 0 among them, never does. -/
def Obligations.LengthCheck : Prop :=
  ∀ (dir : Direction) (s : State) (src dst len cap : Word), s.fault = false → s.cfgValid = true →
    s.arg = #v[some src, some dst, some len, some cap] →
    (len.toNat % 8 ≠ 0 → exec dir.command s = .next { s with result := .invalidLength }) ∧
    (len.toNat % 8 = 0 → ∃ t, exec dir.command s = .next t ∧ t.result ≠ .invalidLength)

/-- R83: a declared capacity below the input length, unsigned, ends the command with INSUFFICIENT_OUTPUT_CAPACITY; a capacity at
or above it never does, wherever in MEM it would reach. -/
def Obligations.CapacityCheck : Prop :=
  ∀ (dir : Direction) (s : State) (src dst len cap : Word), s.fault = false → s.cfgValid = true →
    s.arg = #v[some src, some dst, some len, some cap] → len.toNat % 8 = 0 →
    (cap.toNat < len.toNat → exec dir.command s = .next { s with result := .insufficientOutputCapacity }) ∧
    (len.toNat ≤ cap.toNat → ∃ t, exec dir.command s = .next t ∧ t.result ≠ .insufficientOutputCapacity)

/-- R42: a range that is not empty and does not end inside MEM, the sum taken on naturals, faults with BUFFER_RANGE and accesses
nothing; when both ranges are admitted there is no such fault. -/
def Obligations.RangeCheck : Prop :=
  ∀ (dir : Direction) (s : State) (src dst len cap : Word), s.fault = false → s.cfgValid = true →
    s.arg = #v[some src, some dst, some len, some cap] → len.toNat % 8 = 0 → len.toNat ≤ cap.toNat →
    (¬ (len.toNat = 0 ∨ src.toNat + len.toNat ≤ s.config.memSize) ∨
      ¬ (len.toNat = 0 ∨ dst.toNat + len.toNat ≤ s.config.memSize) →
      exec dir.command s = .next { s with fault := true, result := .bufferRange }) ∧
    ((len.toNat = 0 ∨ src.toNat + len.toNat ≤ s.config.memSize) ∧
      (len.toNat = 0 ∨ dst.toNat + len.toNat ≤ s.config.memSize) →
      ∃ t, exec dir.command s = .next t ∧ t.result ≠ .bufferRange)

/-- R43: admitted ranges that overlap, identical ones among them, fault with BUFFER_OVERLAP and access nothing; ranges that do
not overlap, adjacent ones among them, do not. -/
def Obligations.OverlapCheck : Prop :=
  ∀ (dir : Direction) (s : State) (src dst len cap : Word), s.fault = false → s.cfgValid = true →
    s.arg = #v[some src, some dst, some len, some cap] → len.toNat % 8 = 0 → len.toNat ≤ cap.toNat →
    (len.toNat = 0 ∨ src.toNat + len.toNat ≤ s.config.memSize) →
    (len.toNat = 0 ∨ dst.toNat + len.toNat ≤ s.config.memSize) →
    (0 < len.toNat ∧ src.toNat < dst.toNat + len.toNat ∧ dst.toNat < src.toNat + len.toNat →
      exec dir.command s = .next { s with fault := true, result := .bufferOverlap }) ∧
    (¬ (0 < len.toNat ∧ src.toNat < dst.toNat + len.toNat ∧ dst.toNat < src.toNat + len.toNat) →
      ∃ t, exec dir.command s = .next t ∧ t.result = .ok)

/-- 43_buffer_iterator.md section 3, which the spec marks as derived: an empty input ends with OK and changes no byte of MEM,
whatever the addresses and the capacity. -/
def Obligations.EmptyBufferIsOk : Prop :=
  ∀ (dir : Direction) (s : State) (src dst cap : Word), s.fault = false → s.cfgValid = true →
    s.arg = #v[some src, some dst, some 0#32, some cap] →
    exec dir.command s = .next { s with result := .ok }

/-- R26, R88: on every next state of ENCIPHER and DECIPHER, KEY, ROUNDS, CFG_VALID, ARG, the parameters and the host's side are as
before, the input range reads as before, and so does every byte outside the output range. -/
def Obligations.BufferCommandsFrame : Prop :=
  ∀ (dir : Direction) (s t : State), Memory.wf s.mem → exec dir.command s = .next t →
    t.key = s.key ∧ t.rounds = s.rounds ∧ t.cfgValid = s.cfgValid ∧ t.arg = s.arg ∧ t.config = s.config ∧
    t.host = s.host ∧
    ((∃ n : Fin 4, s.arg[n] = none) → t.mem = s.mem) ∧
    (∀ src dst len cap : Word, s.arg = #v[some src, some dst, some len, some cap] →
      (∀ a, src.toNat ≤ a → a < src.toNat + len.toNat → Memory.read t.mem a = Memory.read s.mem a) ∧
      (∀ a, a < dst.toNat ∨ dst.toNat + len.toNat ≤ a → Memory.read t.mem a = Memory.read s.mem a))

/-- With ROUNDS = 0 ENCIPHER and DECIPHER copy the input range to the output range, byte for byte (43_buffer_iterator.md
section 4, corner cases). -/
def Obligations.ZeroRoundsCopyBuffer : Prop :=
  ∀ (dir : Direction) (s : State) (src dst len cap : Word), Memory.wf s.mem → s.BufferReady src dst len cap →
    s.rounds = 0#32 →
    ∃ t, exec dir.command s = .next t ∧ t.result = .ok ∧
      ∀ k < len.toNat, Memory.read t.mem (dst.toNat + k) = Memory.read s.mem (src.toNat + k)

/-- R79: the result for a block depends on KEY, ROUNDS and the block alone (and on the parameters): two commands of one direction
give equal output blocks for equal input blocks, wherever these lie and whatever the other blocks hold. -/
def Obligations.EqualBlocksEqualResults : Prop :=
  ∀ (dir : Direction) (s s' t t' : State) (src dst len cap src' dst' len' cap' : Word),
    Memory.wf s.mem → Memory.wf s'.mem →
    s.BufferReady src dst len cap → s'.BufferReady src' dst' len' cap' →
    s.key = s'.key → s.rounds = s'.rounds → s.config = s'.config →
    exec dir.command s = .next t → exec dir.command s' = .next t' →
    ∀ i < len.toNat / 8, ∀ i' < len'.toNat / 8,
      Memory.readBlock s.config.byteOrder s.mem (src.toNat + 8 * i) =
        Memory.readBlock s.config.byteOrder s'.mem (src'.toNat + 8 * i') →
      Memory.readBlock s.config.byteOrder t.mem (dst.toNat + 8 * i) =
        Memory.readBlock s.config.byteOrder t'.mem (dst'.toNat + 8 * i')

/-- 43_buffer_iterator.md section 4, the round trip, which the spec marks as derived: an ENCIPHER of I into O that ends with OK,
then a DECIPHER of O into P, under the same KEY, ROUNDS and parameters and with the bytes of O as the ENCIPHER left them, ends with OK,
and P holds the bytes I held before, for every ROUNDS. -/
def Obligations.BufferRoundTrip : Prop :=
  ∀ (s t u : State) (inp out plain len cap cap' : Word),
    Memory.wf s.mem → Memory.wf u.mem →
    s.fault = false → s.arg = #v[some inp, some out, some len, some cap] →
    exec .encipher s = .next t → t.result = .ok →
    u.BufferReady out plain len cap' → u.key = t.key → u.rounds = t.rounds → u.config = t.config →
    (∀ k < len.toNat, Memory.read u.mem (out.toNat + k) = Memory.read t.mem (out.toNat + k)) →
    ∃ v, exec .decipher u = .next v ∧ v.result = .ok ∧
      ∀ k < len.toNat, Memory.read v.mem (plain.toNat + k) = Memory.read s.mem (inp.toNat + k)

/-! ## Outcomes (60_exceptions.md) -/

/-- R97: a faulted engine takes no word; otherwise the first row of the table of checks that applies decides the outcome, an outcome
other than OK writes RESULT and FAULT alone, and when no row applies the outcome is OK. -/
def Obligations.FirstCheckDecides : Prop :=
  ∀ (w : Word) (s : State),
    (s.fault = true → commandStep w s = .next s) ∧
    (s.fault = false →
      ∃ t, commandStep w s = .next t ∧ t.result = checkOutcome w s ∧
        (checkOutcome w s ≠ .ok →
          t = { s with result := checkOutcome w s, fault := (checkOutcome w s).isFault }))

/-- R94, R95: an error (codes 1 to 4) writes RESULT and nothing else; a fault (codes 5 to 7) sets FAULT and RESULT and writes
nothing else; no other outcome sets FAULT. -/
def Obligations.ErrorsAndFaultsWriteStatusOnly : Prop :=
  ∀ (w : Word) (s t : State), commandStep w s = .next t → s.fault = false →
    (1 ≤ t.result.code.toNat → t.result.code.toNat ≤ 4 → t = { s with result := t.result }) ∧
    (5 ≤ t.result.code.toNat → t = { s with result := t.result, fault := true }) ∧
    (t.result.code = 0#4 → t.fault = false)

/-- R98: while FAULT is 1 no command is taken and a CMD write changes no state; no step but reset clears FAULT or changes RESULT;
host writes of ARG and host reads of ARG and STATUS still act; reset clears FAULT. -/
def Obligations.FaultStopsEngineUntilReset : Prop :=
  (∀ (i : Instr) (s : State), s.fault = true → exec i s = .next s) ∧
  (∀ (w : Word) (s : State) (rest : List HostOp), s.fault = true → s.host.ops = busWr s.config .cmd w :: rest →
    step s = .next (s.setOps rest)) ∧
  (∀ s t : State, step s = .next t → s.fault = true → s.nextOpNotReset → t.fault = true ∧ t.result = s.result) ∧
  (∀ (s : State) (rest : List HostOp) (n : Fin 4) (v : Word), s.fault = true →
    s.host.ops = busWr s.config (.arg n) v :: rest → step s = .next ((s.setOps rest).setArg n v)) ∧
  (∀ (s : State) (rest : List HostOp) (n : Fin 4) (v : Word), s.fault = true → s.arg[n] = some v →
    s.host.ops = busRd s.config (.arg n) :: rest → step s = .next ((s.setOps rest).reply (.word v))) ∧
  (∀ (s : State) (rest : List HostOp), s.fault = true →
    s.host.ops = busRd s.config .status :: rest → step s = .next ((s.setOps rest).reply (.word s.statusWord))) ∧
  (∀ (s : State) (rest : List HostOp), s.host.ops = .reset :: rest → ∃ t, step s = .next t ∧ t.fault = false)

/-- Section 3 of 60_exceptions.md over whole runs: from a faulted state, a run whose host operations hold no reset has no correct end,
and ends with the same result code, key, round count and configuration flag. -/
def Obligations.FaultLastsThroughRun : Prop :=
  ∀ (k : Nat) (s t : State), s.fault = true → HostOp.reset ∉ s.host.ops →
    (Host.Core.run Sys2Proof.core k s : Host.Outcome State Fault Refusal) = .next t →
    ¬ t.correctEnd ∧ t.result = s.result ∧ t.key = s.key ∧ t.rounds = s.rounds ∧ t.cfgValid = s.cfgValid

/-! ## Registers (10_state.md) -/

/-- R28: a read of STATUS, at REG_BASE + 0x14, returns RESULT in bits [3:0], CFG_VALID in bit 8, FAULT in bit 9 and 0 in the reserved
bits, and changes nothing; a write to it is ignored. The codes are those of the table of 60_exceptions.md section 1 (R93). -/
def Obligations.StatusRegister : Prop :=
  ResultCode.code .ok = 0#4 ∧ ResultCode.code .invalidLength = 1#4 ∧
  ResultCode.code .insufficientOutputCapacity = 2#4 ∧ ResultCode.code .notConfigured = 3#4 ∧
  ResultCode.code .illegalCommand = 4#4 ∧ ResultCode.code .bufferRange = 5#4 ∧
  ResultCode.code .bufferOverlap = 6#4 ∧ ResultCode.code .argUnwritten = 7#4 ∧
  ∀ s : State,
    s.statusWord.extractLsb' 0 4 = s.result.code ∧ s.statusWord.extractLsb' 4 4 = 0#4 ∧
    State.reset.statusWord = 0#32 ∧
    s.statusWord.getLsbD 8 = s.cfgValid ∧ s.statusWord.getLsbD 9 = s.fault ∧ s.statusWord.extractLsb' 10 22 = 0#22 ∧
    (∀ rest, s.host.ops = .busRead (s.config.regBase + 0x14) 4 :: rest →
      step s = .next ((s.setOps rest).reply (.word s.statusWord))) ∧
    (∀ v rest, s.host.ops = .busWrite (s.config.regBase + 0x14) 4 v :: rest → step s = .next (s.setOps rest))

/-- R27: a write to CMD, at REG_BASE + 0x10, is one command; a read of it returns 0 and has no effect. -/
def Obligations.CmdRegister : Prop :=
  ∀ (s : State) (rest : List HostOp),
    (∀ w, s.host.ops = .busWrite (s.config.regBase + 0x10) 4 w :: rest → step s = commandStep w (s.setOps rest)) ∧
    (s.host.ops = .busRead (s.config.regBase + 0x10) 4 :: rest → step s = .next ((s.setOps rest).reply (.word 0#32)))

/-- The register table of 10_state.md section 2: the reserved words, at offsets 0x18 and 0x1C, read 0 and ignore writes. -/
def Obligations.ReservedRegistersAreInert : Prop :=
  ∀ (s : State) (rest : List HostOp) (offset : Nat), offset = 0x18 ∨ offset = 0x1C →
    (∀ v, s.host.ops = .busWrite (s.config.regBase + offset) 4 v :: rest → step s = .next (s.setOps rest)) ∧
    (s.host.ops = .busRead (s.config.regBase + offset) 4 :: rest →
      step s = .next ((s.setOps rest).reply (.word 0#32)))

/-- R22: a host read of ARGn, at REG_BASE + 4n, returns its value, or a free value (log 3) while it is unwritten, which it then still
is; a command that needs an unwritten ARG register faults with ARG_UNWRITTEN (when no earlier check of R97 decides). -/
def Obligations.ArgRegisterReads : Prop :=
  (∀ (s : State) (rest : List HostOp) (n : Fin 4), s.host.ops = .busRead (s.config.regBase + 4 * n.val) 4 :: rest →
    (∀ v, s.arg[n] = some v → step s = .next ((s.setOps rest).reply (.word v))) ∧
    (s.arg[n] = none → ∃ t, step s = .next t ∧ t = { s with host := t.host } ∧ t.host.ops = rest ∧
      t.host.replies = s.host.replies ++ [.word (Config.freeWord s.host.draws)])) ∧
  (∀ s : State, s.fault = false → (∃ n : Fin 4, s.arg[n] = none) →
    exec .usingKey s = .next { s with fault := true, result := .argUnwritten }) ∧
  (∀ s : State, s.fault = false → s.cfgValid = true → s.arg[0] = none →
    exec .withRounds s = .next { s with fault := true, result := .argUnwritten }) ∧
  (∀ (dir : Direction) (s : State), s.fault = false → s.cfgValid = true → (∃ n : Fin 4, s.arg[n] = none) →
    exec dir.command s = .next { s with fault := true, result := .argUnwritten })

/-- R21: reset makes all four ARG registers unwritten, a host write of ARGn, at REG_BASE + 4n, sets ARGn to the value and nothing
else, and nothing else changes an ARG register. -/
def Obligations.ArgRegisterWrites : Prop :=
  (∀ n : Fin 4, State.reset.arg[n] = none) ∧
  (∀ (s : State) (rest : List HostOp) (n : Fin 4) (v : Word),
    s.host.ops = .busWrite (s.config.regBase + 4 * n.val) 4 v :: rest →
    ∃ t, step s = .next t ∧ t = { s.setOps rest with arg := t.arg } ∧ t.arg[n] = some v ∧
      ∀ m : Fin 4, m ≠ n → t.arg[m] = s.arg[m]) ∧
  (∀ (s t : State) (n : Fin 4), step s = .next t → t.arg[n] ≠ s.arg[n] →
    (s.host.ops.head? = some .reset ∧ t.arg[n] = none) ∨
    ∃ v, s.host.ops.head? = some (.busWrite (s.config.regBase + 4 * n.val) 4 v) ∧ t.arg[n] = some v)

/-- R19: an access to the register bus is refused exactly when it is not 4 bytes wide, is outside the 0x20 bytes at REG_BASE, or is
at an offset that is no multiple of 4; every other one has a next state. -/
def Obligations.OnlyWordAccessesInsideBlock : Prop :=
  ∀ (s : State) (op : HostOp) (rest : List HostOp) (addr bytes : Nat), s.host.ops = op :: rest →
    (op = .busRead addr bytes ∨ ∃ v, op = .busWrite addr bytes v) →
    ((bytes ≠ 4 ∨ addr < s.config.regBase ∨ s.config.regBase + 0x20 ≤ addr ∨ (addr - s.config.regBase) % 4 ≠ 0) →
      step s = .refused .accessNotWord ∨ step s = .refused .accessOutsideBlock ∨ step s = .refused .accessMisaligned) ∧
    (bytes = 4 → s.config.regBase ≤ addr → addr < s.config.regBase + 0x20 → (addr - s.config.regBase) % 4 = 0 →
      ∃ t, step s = .next t)

/-- Which steps write KEY, ROUNDS and CFG_VALID (10_state.md sections 1 and 5): KEY only USING_KEY, ROUNDS only USING_KEY and
WITH_ROUNDS, CFG_VALID only USING_KEY; and a host reset. -/
def Obligations.ConfigurationWriters : Prop :=
  ∀ s t : State, step s = .next t → s.nextOpNotReset →
    (t.key ≠ s.key → s.nextOpIsCommand [0x00000001#32]) ∧
    (t.rounds ≠ s.rounds → s.nextOpIsCommand [0x00000001#32, 0x00000002#32]) ∧
    (t.cfgValid ≠ s.cfgValid → s.nextOpIsCommand [0x00000001#32])

/-- R30 and the table of 10_state.md section 1: RESULT changes only by a command taken while FAULT is 0 or by reset, FAULT only by a
command or reset, MEM only by ENCIPHER, DECIPHER or a host write to MEM. -/
def Obligations.StatusAndMemoryWriters : Prop :=
  ∀ s t : State, step s = .next t →
    (t.result ≠ s.result → s.host.ops.head? = some .reset ∨
      (s.fault = false ∧ ∃ w, s.host.ops.head? = some (busWr s.config .cmd w))) ∧
    (t.fault ≠ s.fault → s.host.ops.head? = some .reset ∨ ∃ w, s.host.ops.head? = some (busWr s.config .cmd w)) ∧
    (t.mem ≠ s.mem → s.nextOpIsCommand [0x00000003#32, 0x00000004#32] ∨
      ∃ a v, s.host.ops.head? = some (.memWrite a v))

/-- No step changes a parameter of 00_scope.md section 3 (R6, R7). 10_state.md section 7 (R32) says so of DELTA and 20_memory.md
section 2 (R39) of the byte order; R7 has the model take MEM_SIZE and REG_BASE as arguments. That all four stand in `State.config`,
where a step could change them, is the model's choice (log 6). -/
def Obligations.ParametersNeverChange : Prop :=
  ∀ s t : State, step s = .next t → t.config = s.config

/-- The host's accesses to MEM (log 9): a write changes the byte it names, a read returns the latest byte written there or the launch
value, and an address at or above MEM_SIZE is no byte of MEM and stops the model. -/
def Obligations.HostMemoryAccess : Prop :=
  ∀ (s : State) (rest : List HostOp) (a : Word), Memory.wf s.mem →
    (∀ v, s.host.ops = .memWrite a v :: rest →
      (a.toNat < s.config.memSize → ∃ t, step s = .next t ∧ t = { s.setOps rest with mem := t.mem } ∧
        ∀ b, Memory.read t.mem b = if b = a.toNat then v else Memory.read s.mem b) ∧
      (s.config.memSize ≤ a.toNat → step s = .fault .noSuchMemoryByte)) ∧
    (s.host.ops = .memRead a :: rest →
      (a.toNat < s.config.memSize →
        step s = .next ((s.setOps rest).reply (.byte (Memory.read s.mem a.toNat)))) ∧
      (s.config.memSize ≤ a.toNat → step s = .fault .noSuchMemoryByte))

/-! ## Reset (70_reset_and_hazards.md) -/

/-- 70_reset_and_hazards.md section 1: after reset every ARG register is unwritten and STATUS reads 0. (KEY and ROUNDS: the model's
choice, log 4, of which this says nothing.) -/
def Obligations.ResetState : Prop :=
  (∀ n : Fin 4, State.reset.arg[n] = none) ∧ State.reset.cfgValid = false ∧ State.reset.fault = false ∧
  State.reset.result = .ok ∧ State.reset.statusWord = 0#32

/-- Reset raised by the host (logs 5 and 14), from any state: ARG unwritten, STATUS 0, and MEM, the parameters and the host's other
operations as they were (10_state.md section 8). -/
def Obligations.HostResetKeepsMemory : Prop :=
  ∀ (s : State) (rest : List HostOp), s.host.ops = .reset :: rest →
    ∃ t, step s = .next t ∧ (∀ n : Fin 4, t.arg[n] = none) ∧ t.statusWord = 0#32 ∧ t.result = .ok ∧
      t.mem = s.mem ∧ t.config = s.config ∧ t.host.ops = rest ∧ t.host.replies = s.host.replies

/-! ## The whole machine -/

/-- The invariant holds at reset, and the parameters there meet the constraint of 00_scope.md section 3. -/
def Obligations.InvAtReset : Prop := State.reset.Inv ∧ State.reset.config.wf

/-- Every step keeps the invariant: MEM in its canonical form and inside MEM_SIZE, FAULT 1 exactly with a fault's code in RESULT,
and every ARG register written once a configuration is held. -/
def Obligations.StepKeepsInv : Prop := ∀ s t : State, s.Inv → step s = .next t → t.Inv

/-- 10_state.md section 5 and 70_reset_and_hazards.md section 1: before the first USING_KEY nothing depends on KEY and ROUNDS. Two
states that differ in them alone, while CFG_VALID is 0, run alike for any number of steps: the same stops, and next states that again
differ in nothing else, or in nothing at all once a configuration is held; so what is observed at their ends is the same. -/
def Obligations.UnconfiguredKeyIsUnobservable : Prop :=
  ∀ (k : Nat) (s s' : State), s.observable = s'.observable →
    mapNext State.observable (Host.Core.run Sys2Proof.core k s : Host.Outcome State Fault Refusal) =
      mapNext State.observable (Host.Core.run Sys2Proof.core k s' : Host.Outcome State Fault Refusal) ∧
    ∀ t t' : State, (Host.Core.run Sys2Proof.core k s : Host.Outcome State Fault Refusal) = .next t →
      (Host.Core.run Sys2Proof.core k s' : Host.Outcome State Fault Refusal) = .next t' →
      t.observation = t'.observation

/-- 10_state.md section 5: the host has no read path to KEY and ROUNDS. A read over the bus or of MEM, with any other KEY and ROUNDS
in the machine, returns the same and leaves the same. -/
def Obligations.KeyHasNoReadPath : Prop :=
  ∀ (s : State) (op : HostOp) (rest : List HostOp) (key : Key) (rounds : Word), s.host.ops = op :: rest →
    ((∃ addr bytes, op = .busRead addr bytes) ∨ ∃ a, op = .memRead a) →
    step { s with key := key, rounds := rounds } =
      mapNext (fun t => { t with key := key, rounds := rounds }) (step s)

/-- 00_scope.md section 5: no command depends on the host's side, so on no drawn value: with any other host's side the command does
the same to the engine. -/
def Obligations.CommandsIgnoreHostSide : Prop :=
  ∀ (w : Word) (s : State) (h : HostSide),
    commandStep w { s with host := h } = mapNext (fun t => { t with host := h }) (commandStep w s)
end

