-- ==== Sys2Proof/Laws/Memory.lean ====
section
/-! SUPPORT. MEM: a read after a write, the canonical form kept by every memory operation, words, blocks, and what the
block loop leaves (20_memory.md R38, R48; 43_buffer_iterator.md R86, R88). -/

namespace Sys2Proof.Machine

theorem Memory.wf_nil : Memory.wf [] := by simp [Memory.wf]

theorem Memory.wf_cons {x : Host.Cell} {m : Memory} :
    Memory.wf (x :: m) ↔ (∀ y ∈ m, x.1 < y.1) ∧ x.2 ≠ unlistedByte ∧ Memory.wf m := by
  simp only [Memory.wf, List.pairwise_cons, List.mem_cons, forall_eq_or_imp]
  tauto

/-- An address below every listed one is unlisted. -/
theorem Memory.read_of_lt {m : Memory} {a : Nat} (h : ∀ y ∈ m, a < y.1) : Memory.read m a = unlistedByte := by
  induction m with
  | nil => rfl
  | cons x m ih =>
    simp only [List.mem_cons, forall_eq_or_imp] at h
    simp only [Memory.read, if_neg (Nat.ne_of_gt h.1)]
    exact ih h.2

/-- A read after a write gives the byte written, and every other byte reads as before (R48). -/
theorem Memory.read_write {m : Memory} (h : Memory.wf m) (a : Nat) (v : Byte) (b : Nat) :
    Memory.read (Memory.write m a v) b = if a = b then v else Memory.read m b := by
  induction m with
  | nil =>
    by_cases hv : v = unlistedByte <;> simp [Memory.write, Memory.read, hv]
  | cons x m ih =>
    obtain ⟨c, u⟩ := x
    obtain ⟨hlt, hu, hm⟩ := Memory.wf_cons.mp h
    have below : ∀ y ∈ m, c < y.1 := hlt
    by_cases h1 : a < c
    · have hread : Memory.read ((c, u) :: m) a = unlistedByte :=
        Memory.read_of_lt (by
          simp only [List.mem_cons, forall_eq_or_imp]
          exact ⟨h1, fun y hy => Nat.lt_trans h1 (below y hy)⟩)
      by_cases hv : v = unlistedByte
      · simp only [Memory.write, if_pos h1, if_pos hv]
        split
        · next hab => rw [← hab, hread, hv]
        · rfl
      · simp only [Memory.write, if_pos h1, if_neg hv]
        rfl
    · by_cases h2 : a = c
      · subst h2
        by_cases hv : v = unlistedByte
        · simp only [Memory.write, if_neg h1, if_pos, if_pos hv, Memory.read]
          split
          · next hab => rw [← hab, hv]; exact Memory.read_of_lt below
          · rfl
        · simp only [Memory.write, if_neg h1, if_pos, if_neg hv, Memory.read]
          split <;> rfl
      · simp only [Memory.write, if_neg h1, if_neg h2, Memory.read, ih hm]
        by_cases h3 : c = b
        · have : a ≠ b := fun e => h2 (e.trans h3.symm)
          simp [h3, this]
        · simp [h3]

/-- The addresses a write can list: those listed before, and its own. -/
theorem Memory.mem_write {m : Memory} {a : Nat} {v : Byte} {x : Host.Cell} (hx : x ∈ Memory.write m a v) :
    x ∈ m ∨ (x = (a, v) ∧ v ≠ unlistedByte) := by
  induction m with
  | nil =>
    by_cases hv : v = unlistedByte <;> simp_all [Memory.write]
  | cons c m ih =>
    simp only [Memory.write] at hx
    split at hx
    · split at hx
      · exact .inl hx
      · next hv =>
        rcases List.mem_cons.mp hx with h | h
        · exact .inr ⟨h, hv⟩
        · exact .inl h
    · split at hx
      · split at hx
        · exact .inl (List.mem_cons_of_mem _ hx)
        · next hv =>
          rcases List.mem_cons.mp hx with h | h
          · exact .inr ⟨h, hv⟩
          · exact .inl (List.mem_cons_of_mem _ h)
      · rcases List.mem_cons.mp hx with h | h
        · exact .inl (h ▸ List.mem_cons_self)
        · rcases ih h with h | h
          · exact .inl (List.mem_cons_of_mem _ h)
          · exact .inr h

/-- A write keeps the canonical form. -/
theorem Memory.write_wf {m : Memory} (h : Memory.wf m) (a : Nat) (v : Byte) : Memory.wf (Memory.write m a v) := by
  induction m with
  | nil => by_cases hv : v = unlistedByte <;> simp [Memory.write, hv, Memory.wf]
  | cons x m ih =>
    obtain ⟨hlt, hu, hm⟩ := Memory.wf_cons.mp h
    simp only [Memory.write]
    split
    · next h1 =>
      split
      · exact h
      · next hv =>
        refine Memory.wf_cons.mpr ⟨?_, hv, h⟩
        simp only [List.mem_cons, forall_eq_or_imp]
        exact ⟨h1, fun y hy => Nat.lt_trans h1 (hlt y hy)⟩
    · next h1 =>
      split
      · next h2 =>
        split
        · exact hm
        · next hv => exact Memory.wf_cons.mpr ⟨fun y hy => h2 ▸ hlt y hy, hv, hm⟩
      · next h2 =>
        refine Memory.wf_cons.mpr ⟨fun y hy => ?_, hu, ih hm⟩
        rcases Memory.mem_write hy with h | ⟨rfl, _⟩
        · exact hlt y h
        · exact Nat.lt_of_le_of_ne (Nat.le_of_not_lt h1) (Ne.symm h2)

/-- A write below MEM_SIZE lists no byte at or above it. -/
theorem Memory.write_within {size : Nat} {m : Memory} (h : Memory.within size m) {a : Nat} (ha : a < size) (v : Byte) :
    Memory.within size (Memory.write m a v) := fun x hx => by
  rcases Memory.mem_write hx with h' | ⟨rfl, _⟩
  · exact h x h'
  · exact ha

/-! ## Words -/

theorem be32_toNat (b0 b1 b2 b3 : Byte) :
    (be32 b0 b1 b2 b3).toNat = b0.toNat * 2 ^ 24 + b1.toNat * 2 ^ 16 + b2.toNat * 2 ^ 8 + b3.toNat := by
  have h1 := b1.isLt
  have h2 := b2.isLt
  have h3 := b3.isLt
  simp only [be32, BitVec.toNat_append]
  rw [← Nat.shiftLeft_add_eq_or_of_lt h3, ← Nat.shiftLeft_add_eq_or_of_lt h2, ← Nat.shiftLeft_add_eq_or_of_lt h1]
  simp only [Nat.shiftLeft_eq]
  omega

theorem unbe32_toNat (v : Word) (k : Nat) : (unbe32 v k).toNat = v.toNat / 2 ^ (24 - 8 * k) % 2 ^ 8 := by
  simp [unbe32, Nat.shiftRight_eq_div_pow]

/-- `be32` is the sum of shifted bytes that R11 writes. -/
theorem be32_eq_sum (b0 b1 b2 b3 : Byte) :
    be32 b0 b1 b2 b3 = (b0.setWidth 32 <<< 24) + (b1.setWidth 32 <<< 16) + (b2.setWidth 32 <<< 8) + b3.setWidth 32 := by
  apply BitVec.eq_of_toNat_eq
  have h0 := b0.isLt
  have h1 := b1.isLt
  have h2 := b2.isLt
  have h3 := b3.isLt
  simp only [be32_toNat, BitVec.toNat_add, BitVec.toNat_shiftLeft, BitVec.toNat_setWidth, Nat.shiftLeft_eq]
  omega

theorem be32_unbe32 (v : Word) : be32 (unbe32 v 0) (unbe32 v 1) (unbe32 v 2) (unbe32 v 3) = v := by
  apply BitVec.eq_of_toNat_eq
  have h := v.isLt
  simp only [be32_toNat, unbe32_toNat]
  omega

theorem unbe32_be32 (b0 b1 b2 b3 : Byte) :
    unbe32 (be32 b0 b1 b2 b3) 0 = b0 ∧ unbe32 (be32 b0 b1 b2 b3) 1 = b1 ∧
    unbe32 (be32 b0 b1 b2 b3) 2 = b2 ∧ unbe32 (be32 b0 b1 b2 b3) 3 = b3 := by
  have h0 := b0.isLt
  have h1 := b1.isLt
  have h2 := b2.isLt
  have h3 := b3.isLt
  refine ⟨?_, ?_, ?_, ?_⟩ <;> apply BitVec.eq_of_toNat_eq <;> simp only [be32_toNat, unbe32_toNat] <;> omega

theorem Memory.writeWord_wf {m : Memory} (h : Memory.wf m) (o : ByteOrder) (a : Nat) (v : Word) :
    Memory.wf (Memory.writeWord o m a v) :=
  Memory.write_wf (Memory.write_wf (Memory.write_wf (Memory.write_wf h _ _) _ _) _ _) _ _

theorem Memory.writeWord_within {size : Nat} {m : Memory} (h : Memory.within size m) (o : ByteOrder) {a : Nat}
    (ha : a + 4 ≤ size) (v : Word) : Memory.within size (Memory.writeWord o m a v) :=
  Memory.write_within (Memory.write_within (Memory.write_within (Memory.write_within h
    (by omega) _) (by omega) _) (by omega) _) (by omega) _

/-- A word written at `a` is its four bytes at `a .. a+3` in memory order; every other byte reads as before. -/
theorem Memory.read_writeWord {m : Memory} (h : Memory.wf m) (o : ByteOrder) (a : Nat) (v : Word) (b : Nat) :
    Memory.read (Memory.writeWord o m a v) b =
      if a ≤ b ∧ b < a + 4 then unbe32 v (byteRank o (b - a)) else Memory.read m b := by
  have w1 := Memory.write_wf h a (unbe32 v (byteRank o 0))
  have w2 := Memory.write_wf w1 (a + 1) (unbe32 v (byteRank o 1))
  have w3 := Memory.write_wf w2 (a + 2) (unbe32 v (byteRank o 2))
  simp only [Memory.writeWord, Memory.read_write w3, Memory.read_write w2, Memory.read_write w1, Memory.read_write h]
  by_cases h3 : a + 3 = b
  · subst h3; simp
  by_cases h2 : a + 2 = b
  · subst h2; simp
  by_cases h1 : a + 1 = b
  · subst h1; simp
  by_cases h0 : a = b
  · subst h0; simp
  rw [if_neg h3, if_neg h2, if_neg h1, if_neg h0, if_neg (by omega)]

/-- A word reads the same wherever its four bytes read the same. -/
theorem Memory.readWord_congr (o : ByteOrder) {m m' : Memory} {a a' : Nat}
    (h : ∀ k < 4, Memory.read m (a + k) = Memory.read m' (a' + k)) :
    Memory.readWord o m a = Memory.readWord o m' a' := by
  simp only [Memory.readWord]
  cases o <;> simp only [byteRank] <;>
    rw [h _ (by omega), h _ (by omega), h _ (by omega), h _ (by omega)]

theorem Memory.readWord_writeWord {m : Memory} (h : Memory.wf m) (o : ByteOrder) (a : Nat) (v : Word) :
    Memory.readWord o (Memory.writeWord o m a v) a = v := by
  simp only [Memory.readWord, Memory.read_writeWord h]
  cases o <;> simp [byteRank, be32_unbe32]

/-! ## Blocks -/

theorem Memory.writeBlock_wf {m : Memory} (h : Memory.wf m) (o : ByteOrder) (a : Nat) (b : Block) :
    Memory.wf (Memory.writeBlock o m a b) := Memory.writeWord_wf (Memory.writeWord_wf h _ _ _) _ _ _

theorem Memory.writeBlock_within {size : Nat} {m : Memory} (h : Memory.within size m) (o : ByteOrder) {a : Nat}
    (ha : a + 8 ≤ size) (b : Block) : Memory.within size (Memory.writeBlock o m a b) :=
  Memory.writeWord_within (Memory.writeWord_within h _ (by omega) _) _ (by omega) _

/-- Bytes outside `a .. a+7` read as before a block is written at `a`. -/
theorem Memory.read_writeBlock_outside {m : Memory} (h : Memory.wf m) (o : ByteOrder) (a : Nat) (b : Block) {x : Nat}
    (hx : x < a ∨ a + 8 ≤ x) : Memory.read (Memory.writeBlock o m a b) x = Memory.read m x := by
  simp only [Memory.writeBlock, Memory.read_writeWord (Memory.writeWord_wf h _ _ _), Memory.read_writeWord h]
  rw [if_neg (by omega), if_neg (by omega)]

/-- The bytes of a block written at `a`: v0 in bytes 0..3, v1 in bytes 4..7 (R87). -/
theorem Memory.read_writeBlock_inside {m : Memory} (h : Memory.wf m) (o : ByteOrder) (a : Nat) (b : Block) {k : Nat}
    (hk : k < 4) :
    Memory.read (Memory.writeBlock o m a b) (a + k) = unbe32 b.v0 (byteRank o k) ∧
    Memory.read (Memory.writeBlock o m a b) (a + 4 + k) = unbe32 b.v1 (byteRank o k) := by
  simp only [Memory.writeBlock, Memory.read_writeWord (Memory.writeWord_wf h _ _ _), Memory.read_writeWord h]
  constructor
  · rw [if_neg (by omega), if_pos (by omega)]; congr 2; omega
  · rw [if_pos (by omega)]; congr 2; omega

theorem Memory.readBlock_congr (o : ByteOrder) {m m' : Memory} {a a' : Nat}
    (h : ∀ k < 8, Memory.read m (a + k) = Memory.read m' (a' + k)) :
    Memory.readBlock o m a = Memory.readBlock o m' a' := by
  simp only [Memory.readBlock, Block.mk.injEq]
  refine ⟨Memory.readWord_congr o fun k hk => h k (by omega), Memory.readWord_congr o fun k hk => ?_⟩
  rw [Nat.add_assoc, Nat.add_assoc]
  exact h (4 + k) (by omega)

theorem Memory.readBlock_writeBlock {m : Memory} (h : Memory.wf m) (o : ByteOrder) (a : Nat) (b : Block) :
    Memory.readBlock o (Memory.writeBlock o m a b) a = b := by
  have h1 := Memory.writeWord_wf h o a b.v0
  obtain ⟨v0, v1⟩ := b
  simp only [Memory.readBlock, Memory.writeBlock, Block.mk.injEq]
  refine ⟨?_, Memory.readWord_writeWord h1 o (a + 4) v1⟩
  refine (Memory.readWord_congr o fun k hk => ?_).trans (Memory.readWord_writeWord h o a v0)
  rw [Memory.read_writeWord h1, if_neg (by omega)]

/-- A word determines its four bytes: byte `k` in memory order. -/
theorem Memory.read_of_readWord (o : ByteOrder) (m : Memory) (a : Nat) {k : Nat} (hk : k < 4) :
    Memory.read m (a + k) = unbe32 (Memory.readWord o m a) (byteRank o k) := by
  simp only [Memory.readWord]
  cases o <;> interval_cases k <;> simp only [byteRank] <;> simp [unbe32_be32]

/-- A block determines its eight bytes: equal blocks have equal bytes. -/
theorem Memory.read_eq_of_readBlock_eq (o : ByteOrder) {m m' : Memory} {a a' : Nat}
    (h : Memory.readBlock o m a = Memory.readBlock o m' a') {k : Nat} (hk : k < 8) :
    Memory.read m (a + k) = Memory.read m' (a' + k) := by
  simp only [Memory.readBlock, Block.mk.injEq] at h
  by_cases h4 : k < 4
  · rw [Memory.read_of_readWord o m a h4, Memory.read_of_readWord o m' a' h4, h.1]
  · obtain ⟨j, rfl⟩ : ∃ j, k = 4 + j := ⟨k - 4, by omega⟩
    have hj : j < 4 := by omega
    rw [← Nat.add_assoc, ← Nat.add_assoc, Memory.read_of_readWord o m (a + 4) hj,
      Memory.read_of_readWord o m' (a' + 4) hj, h.2]

/-! ## The block loop -/

theorem transformBlocks_wf (o : ByteOrder) (f : Block → Block) (src dst : Nat) (n : Nat) {m : Memory}
    (h : Memory.wf m) : Memory.wf (transformBlocks o f src dst n m) := by
  induction n with
  | zero => exact h
  | succ n ih => exact Memory.writeBlock_wf ih _ _ _

theorem transformBlocks_within (o : ByteOrder) (f : Block → Block) (src dst : Nat) {size : Nat} (n : Nat) {m : Memory}
    (h : Memory.within size m) (hd : n = 0 ∨ dst + 8 * n ≤ size) :
    Memory.within size (transformBlocks o f src dst n m) := by
  induction n with
  | zero => exact h
  | succ n ih => exact Memory.writeBlock_within (ih (by omega)) _ (by omega) _

/-- The block loop writes no byte outside the output range (R88). -/
theorem transformBlocks_outside (o : ByteOrder) (f : Block → Block) (src dst : Nat) (n : Nat) {m : Memory}
    (h : Memory.wf m) {x : Nat} (hx : x < dst ∨ dst + 8 * n ≤ x) :
    Memory.read (transformBlocks o f src dst n m) x = Memory.read m x := by
  induction n with
  | zero => rfl
  | succ n ih =>
    simp only [transformBlocks]
    rw [Memory.read_writeBlock_outside (transformBlocks_wf _ _ _ _ _ h) _ _ _ (by omega), ih (by omega)]

/-- The block loop over ranges that do not overlap: output block `i` is `f` of input block `i` as it stood before (R86). -/
theorem transformBlocks_block (o : ByteOrder) (f : Block → Block) (src dst : Nat) (n : Nat) {m : Memory}
    (h : Memory.wf m) (hd : src + 8 * n ≤ dst ∨ dst + 8 * n ≤ src) {i : Nat} (hi : i < n) :
    Memory.readBlock o (transformBlocks o f src dst n m) (dst + 8 * i) = f (Memory.readBlock o m (src + 8 * i)) := by
  induction n with
  | zero => omega
  | succ n ih =>
    have hwf := transformBlocks_wf o f src dst n h
    simp only [transformBlocks]
    by_cases hin : i = n
    · subst hin
      rw [Memory.readBlock_writeBlock hwf]
      congr 1
      exact Memory.readBlock_congr o fun k hk => transformBlocks_outside o f src dst i h (by omega)
    · rw [← ih (by omega) (by omega)]
      exact Memory.readBlock_congr o fun k hk => Memory.read_writeBlock_outside hwf _ _ _ (by omega)

end Sys2Proof.Machine
end

