-- ==== Sys2Proof/Laws/State.lean ====
section
/-! SUPPORT. One lemma per field of State per update, so that no proof unfolds a record update. -/

namespace Sys2Proof.Machine

variable (s : State)

@[simp] theorem State.setArg_config (n : Fin 4) (v : Word) : (s.setArg n v).config = s.config := rfl
@[simp] theorem State.setArg_arg (n : Fin 4) (v : Word) : (s.setArg n v).arg = s.arg.set n.val (some v) n.isLt := rfl
@[simp] theorem State.setArg_key (n : Fin 4) (v : Word) : (s.setArg n v).key = s.key := rfl
@[simp] theorem State.setArg_rounds (n : Fin 4) (v : Word) : (s.setArg n v).rounds = s.rounds := rfl
@[simp] theorem State.setArg_cfgValid (n : Fin 4) (v : Word) : (s.setArg n v).cfgValid = s.cfgValid := rfl
@[simp] theorem State.setArg_fault (n : Fin 4) (v : Word) : (s.setArg n v).fault = s.fault := rfl
@[simp] theorem State.setArg_result (n : Fin 4) (v : Word) : (s.setArg n v).result = s.result := rfl
@[simp] theorem State.setArg_mem (n : Fin 4) (v : Word) : (s.setArg n v).mem = s.mem := rfl
@[simp] theorem State.setArg_host (n : Fin 4) (v : Word) : (s.setArg n v).host = s.host := rfl

@[simp] theorem State.setConfiguration_config (k : Key) (r : Word) : (s.setConfiguration k r).config = s.config := rfl
@[simp] theorem State.setConfiguration_arg (k : Key) (r : Word) : (s.setConfiguration k r).arg = s.arg := rfl
@[simp] theorem State.setConfiguration_key (k : Key) (r : Word) : (s.setConfiguration k r).key = k := rfl
@[simp] theorem State.setConfiguration_rounds (k : Key) (r : Word) : (s.setConfiguration k r).rounds = r := rfl
@[simp] theorem State.setConfiguration_cfgValid (k : Key) (r : Word) : (s.setConfiguration k r).cfgValid = true := rfl
@[simp] theorem State.setConfiguration_fault (k : Key) (r : Word) : (s.setConfiguration k r).fault = s.fault := rfl
@[simp] theorem State.setConfiguration_result (k : Key) (r : Word) : (s.setConfiguration k r).result = s.result := rfl
@[simp] theorem State.setConfiguration_mem (k : Key) (r : Word) : (s.setConfiguration k r).mem = s.mem := rfl
@[simp] theorem State.setConfiguration_host (k : Key) (r : Word) : (s.setConfiguration k r).host = s.host := rfl

@[simp] theorem State.setRounds_config (n : Word) : (s.setRounds n).config = s.config := rfl
@[simp] theorem State.setRounds_arg (n : Word) : (s.setRounds n).arg = s.arg := rfl
@[simp] theorem State.setRounds_key (n : Word) : (s.setRounds n).key = s.key := rfl
@[simp] theorem State.setRounds_rounds (n : Word) : (s.setRounds n).rounds = n := rfl
@[simp] theorem State.setRounds_cfgValid (n : Word) : (s.setRounds n).cfgValid = s.cfgValid := rfl
@[simp] theorem State.setRounds_fault (n : Word) : (s.setRounds n).fault = s.fault := rfl
@[simp] theorem State.setRounds_result (n : Word) : (s.setRounds n).result = s.result := rfl
@[simp] theorem State.setRounds_mem (n : Word) : (s.setRounds n).mem = s.mem := rfl
@[simp] theorem State.setRounds_host (n : Word) : (s.setRounds n).host = s.host := rfl

@[simp] theorem State.setMem_config (m : Memory) : (s.setMem m).config = s.config := rfl
@[simp] theorem State.setMem_arg (m : Memory) : (s.setMem m).arg = s.arg := rfl
@[simp] theorem State.setMem_key (m : Memory) : (s.setMem m).key = s.key := rfl
@[simp] theorem State.setMem_rounds (m : Memory) : (s.setMem m).rounds = s.rounds := rfl
@[simp] theorem State.setMem_cfgValid (m : Memory) : (s.setMem m).cfgValid = s.cfgValid := rfl
@[simp] theorem State.setMem_fault (m : Memory) : (s.setMem m).fault = s.fault := rfl
@[simp] theorem State.setMem_result (m : Memory) : (s.setMem m).result = s.result := rfl
@[simp] theorem State.setMem_mem (m : Memory) : (s.setMem m).mem = m := rfl
@[simp] theorem State.setMem_host (m : Memory) : (s.setMem m).host = s.host := rfl

@[simp] theorem State.finish_config (c : ResultCode) : (s.finish c).config = s.config := rfl
@[simp] theorem State.finish_arg (c : ResultCode) : (s.finish c).arg = s.arg := rfl
@[simp] theorem State.finish_key (c : ResultCode) : (s.finish c).key = s.key := rfl
@[simp] theorem State.finish_rounds (c : ResultCode) : (s.finish c).rounds = s.rounds := rfl
@[simp] theorem State.finish_cfgValid (c : ResultCode) : (s.finish c).cfgValid = s.cfgValid := rfl
@[simp] theorem State.finish_fault (c : ResultCode) : (s.finish c).fault = s.fault := rfl
@[simp] theorem State.finish_result (c : ResultCode) : (s.finish c).result = c := rfl
@[simp] theorem State.finish_mem (c : ResultCode) : (s.finish c).mem = s.mem := rfl
@[simp] theorem State.finish_host (c : ResultCode) : (s.finish c).host = s.host := rfl

@[simp] theorem State.raiseFault_config (c : ResultCode) : (s.raiseFault c).config = s.config := rfl
@[simp] theorem State.raiseFault_arg (c : ResultCode) : (s.raiseFault c).arg = s.arg := rfl
@[simp] theorem State.raiseFault_key (c : ResultCode) : (s.raiseFault c).key = s.key := rfl
@[simp] theorem State.raiseFault_rounds (c : ResultCode) : (s.raiseFault c).rounds = s.rounds := rfl
@[simp] theorem State.raiseFault_cfgValid (c : ResultCode) : (s.raiseFault c).cfgValid = s.cfgValid := rfl
@[simp] theorem State.raiseFault_fault (c : ResultCode) : (s.raiseFault c).fault = true := rfl
@[simp] theorem State.raiseFault_result (c : ResultCode) : (s.raiseFault c).result = c := rfl
@[simp] theorem State.raiseFault_mem (c : ResultCode) : (s.raiseFault c).mem = s.mem := rfl
@[simp] theorem State.raiseFault_host (c : ResultCode) : (s.raiseFault c).host = s.host := rfl

@[simp] theorem State.setOps_config (l : List HostOp) : (s.setOps l).config = s.config := rfl
@[simp] theorem State.setOps_arg (l : List HostOp) : (s.setOps l).arg = s.arg := rfl
@[simp] theorem State.setOps_key (l : List HostOp) : (s.setOps l).key = s.key := rfl
@[simp] theorem State.setOps_rounds (l : List HostOp) : (s.setOps l).rounds = s.rounds := rfl
@[simp] theorem State.setOps_cfgValid (l : List HostOp) : (s.setOps l).cfgValid = s.cfgValid := rfl
@[simp] theorem State.setOps_fault (l : List HostOp) : (s.setOps l).fault = s.fault := rfl
@[simp] theorem State.setOps_result (l : List HostOp) : (s.setOps l).result = s.result := rfl
@[simp] theorem State.setOps_mem (l : List HostOp) : (s.setOps l).mem = s.mem := rfl
@[simp] theorem State.setOps_host (l : List HostOp) : (s.setOps l).host = { s.host with ops := l } := rfl

@[simp] theorem State.reply_config (r : Reply) : (s.reply r).config = s.config := rfl
@[simp] theorem State.reply_arg (r : Reply) : (s.reply r).arg = s.arg := rfl
@[simp] theorem State.reply_key (r : Reply) : (s.reply r).key = s.key := rfl
@[simp] theorem State.reply_rounds (r : Reply) : (s.reply r).rounds = s.rounds := rfl
@[simp] theorem State.reply_cfgValid (r : Reply) : (s.reply r).cfgValid = s.cfgValid := rfl
@[simp] theorem State.reply_fault (r : Reply) : (s.reply r).fault = s.fault := rfl
@[simp] theorem State.reply_result (r : Reply) : (s.reply r).result = s.result := rfl
@[simp] theorem State.reply_mem (r : Reply) : (s.reply r).mem = s.mem := rfl
@[simp] theorem State.reply_host (r : Reply) :
    (s.reply r).host =
      { s.host with replies := s.host.replies ++ [r] } := rfl

@[simp] theorem State.replyDraw_config : s.replyDraw.config = s.config := rfl
@[simp] theorem State.replyDraw_arg : s.replyDraw.arg = s.arg := rfl
@[simp] theorem State.replyDraw_key : s.replyDraw.key = s.key := rfl
@[simp] theorem State.replyDraw_rounds : s.replyDraw.rounds = s.rounds := rfl
@[simp] theorem State.replyDraw_cfgValid : s.replyDraw.cfgValid = s.cfgValid := rfl
@[simp] theorem State.replyDraw_fault : s.replyDraw.fault = s.fault := rfl
@[simp] theorem State.replyDraw_result : s.replyDraw.result = s.result := rfl
@[simp] theorem State.replyDraw_mem : s.replyDraw.mem = s.mem := rfl
@[simp] theorem State.replyDraw_host :
    s.replyDraw.host =
      { s.host with replies := s.host.replies ++ [.word (Config.freeWord s.host.draws)], draws := s.host.draws + 1 } := rfl

@[simp] theorem State.hostReset_config : s.hostReset.config = s.config := rfl
@[simp] theorem State.hostReset_arg : s.hostReset.arg = #v[none, none, none, none] := rfl
@[simp] theorem State.hostReset_key :
    s.hostReset.key =
      #v[Config.freeWord s.host.draws, Config.freeWord (s.host.draws + 1), Config.freeWord (s.host.draws + 2), Config.freeWord (s.host.draws + 3)] := rfl
@[simp] theorem State.hostReset_rounds : s.hostReset.rounds = Config.freeWord (s.host.draws + 4) := rfl
@[simp] theorem State.hostReset_cfgValid : s.hostReset.cfgValid = false := rfl
@[simp] theorem State.hostReset_fault : s.hostReset.fault = false := rfl
@[simp] theorem State.hostReset_result : s.hostReset.result = .ok := rfl
@[simp] theorem State.hostReset_mem : s.hostReset.mem = s.mem := rfl
@[simp] theorem State.hostReset_host : s.hostReset.host = { s.host with draws := s.host.draws + 5 } := rfl

end Sys2Proof.Machine
end

