-- ==== Sys2Proof/Laws/Commands.lean ====
section
/-! SUPPORT. What each command can do, one inversion lemma per meaning (40_key_schedule.md R62, R63; 43_buffer_iterator.md
R81), and the laws of the round iteration. -/

namespace Sys2Proof.Machine

@[simp] theorem State.ifTaken_of_fault {s : State} (h : s.fault = true) (f : State → State) : s.ifTaken f = s := by
  simp [State.ifTaken, h]

@[simp] theorem State.ifTaken_of_clear {s : State} (h : s.fault = false) (f : State → State) : s.ifTaken f = f s := by
  simp [State.ifTaken, h]

@[simp] theorem exec_usingKey (s : State) : exec .usingKey s = .next (s.ifTaken usingKey) := rfl
@[simp] theorem exec_withRounds (s : State) : exec .withRounds s = .next (s.ifTaken withRounds) := rfl
@[simp] theorem exec_encipher (s : State) : exec .encipher s = .next (s.ifTaken (bufferOp .enc)) := rfl
@[simp] theorem exec_decipher (s : State) : exec .decipher s = .next (s.ifTaken (bufferOp .dec)) := rfl

/-- Four operand registers with words in them, as one vector. -/
theorem arg_eq_iff {v : Vector (Option Word) 4} {a0 a1 a2 a3 : Option Word} :
    v = #v[a0, a1, a2, a3] ↔ v[0] = a0 ∧ v[1] = a1 ∧ v[2] = a2 ∧ v[3] = a3 := by
  constructor
  · rintro rfl; simp
  · rintro ⟨rfl, rfl, rfl, rfl⟩
    apply Vector.ext
    intro i hi
    interval_cases i <;> rfl

/-- The key operand is there exactly when all four ARG registers hold a word (R55). -/
theorem State.keyOperand_eq_some {s : State} {k0 k1 k2 k3 : Word} :
    s.keyOperand = some #v[k0, k1, k2, k3] ↔ s.arg = #v[some k0, some k1, some k2, some k3] := by
  rw [arg_eq_iff, State.keyOperand]
  constructor
  · intro h
    split at h
    · next h0 h1 h2 h3 =>
      have h := Option.some.inj h
      have e0 := congrArg (fun v : Key => v[0]) h
      have e1 := congrArg (fun v : Key => v[1]) h
      have e2 := congrArg (fun v : Key => v[2]) h
      have e3 := congrArg (fun v : Key => v[3]) h
      simp only [Vector.getElem_mk, List.getElem_toArray, List.getElem_cons_zero, List.getElem_cons_succ] at e0 e1 e2 e3
      simp [h0, h1, h2, h3, e0, e1, e2, e3]
    · simp at h
  · rintro ⟨h0, h1, h2, h3⟩
    simp [h0, h1, h2, h3]

/-- The buffer operands are there exactly when all four ARG registers hold a word (R55). -/
theorem State.bufferOperands_eq_some {s : State} {o : BufferArgs} :
    s.bufferOperands = some o ↔ s.arg = #v[some o.src, some o.dst, some o.len, some o.cap] := by
  rw [arg_eq_iff, State.bufferOperands]
  constructor
  · intro h
    split at h
    · next h0 h1 h2 h3 =>
      obtain rfl := Option.some.inj h
      exact ⟨h0, h1, h2, h3⟩
    · simp at h
  · rintro ⟨h0, h1, h2, h3⟩
    simp [h0, h1, h2, h3]

theorem exists_unwritten_iff {v : Vector (Option Word) 4} :
    (∃ n : Fin 4, v[n] = none) ↔ v[0] = none ∨ v[1] = none ∨ v[2] = none ∨ v[3] = none := by
  constructor
  · rintro ⟨n, h⟩
    fin_cases n
    · exact .inl h
    · exact .inr (.inl h)
    · exact .inr (.inr (.inl h))
    · exact .inr (.inr (.inr h))
  · rintro (h | h | h | h)
    · exact ⟨0, h⟩
    · exact ⟨1, h⟩
    · exact ⟨2, h⟩
    · exact ⟨3, h⟩

theorem State.keyOperand_eq_none {s : State} : s.keyOperand = none ↔ ∃ n : Fin 4, s.arg[n] = none := by
  rw [exists_unwritten_iff, State.keyOperand]
  cases s.arg[0] <;> cases s.arg[1] <;> cases s.arg[2] <;> cases s.arg[3] <;> simp

theorem State.bufferOperands_eq_none {s : State} : s.bufferOperands = none ↔ ∃ n : Fin 4, s.arg[n] = none := by
  rw [exists_unwritten_iff, State.bufferOperands]
  cases s.arg[0] <;> cases s.arg[1] <;> cases s.arg[2] <;> cases s.arg[3] <;> simp

/-- Everything USING_KEY can do when it is taken (R62). -/
theorem usingKey_cases (s : State) :
    ((∃ n : Fin 4, s.arg[n] = none) ∧ usingKey s = s.raiseFault .argUnwritten) ∨
    (∃ k0 k1 k2 k3 : Word, s.arg = #v[some k0, some k1, some k2, some k3] ∧
      usingKey s = (s.setConfiguration #v[k0, k1, k2, k3] defaultRounds).finish .ok) := by
  cases h : s.keyOperand with
  | none => exact .inl ⟨State.keyOperand_eq_none.mp h, by simp [usingKey, h]⟩
  | some k =>
    obtain ⟨k0, k1, k2, k3, rfl⟩ : ∃ k0 k1 k2 k3 : Word, k = #v[k0, k1, k2, k3] :=
      ⟨k[0], k[1], k[2], k[3], by apply Vector.ext; intro i hi; interval_cases i <;> rfl⟩
    exact .inr ⟨k0, k1, k2, k3, State.keyOperand_eq_some.mp h, by simp [usingKey, h]⟩

/-- Everything WITH_ROUNDS can do when it is taken (R63). -/
theorem withRounds_cases (s : State) :
    (s.cfgValid = false ∧ withRounds s = s.finish .notConfigured) ∨
    (s.cfgValid = true ∧ s.arg[0] = none ∧ withRounds s = s.raiseFault .argUnwritten) ∨
    (s.cfgValid = true ∧ ∃ n, s.arg[0] = some n ∧ withRounds s = (s.setRounds n).finish .ok) := by
  cases hc : s.cfgValid with
  | false => exact .inl ⟨rfl, by simp [withRounds, hc]⟩
  | true =>
    cases h : s.arg[0] with
    | none => exact .inr (.inl ⟨rfl, rfl, by simp [withRounds, hc, State.roundsOperand, h]⟩)
    | some n => exact .inr (.inr ⟨rfl, n, rfl, by simp [withRounds, hc, State.roundsOperand, h]⟩)

/-- The length, capacity, range and overlap checks of R81 all pass. -/
structure BufferArgs.Passes (c : Config) (o : BufferArgs) : Prop where
  len : o.len.toNat % 8 = 0
  cap : o.len.toNat ≤ o.cap.toNat
  src : admitted c.memSize o.src.toNat o.len.toNat
  dst : admitted c.memSize o.dst.toNat o.len.toNat
  apart : ¬ overlap o.src.toNat o.dst.toNat o.len.toNat

/-- What ENCIPHER and DECIPHER leave in MEM when every check passes (R81). -/
def State.bufferResult (dir : Direction) (s : State) (o : BufferArgs) : Memory :=
  transformBlocks s.config.byteOrder (s.transform dir) o.src.toNat o.dst.toNat (o.len.toNat / 8) s.mem

/-- Everything BufferOp can do when it is taken: it ends with an error, ends as a fault, or transforms every block (R81). -/
theorem bufferOp_cases (dir : Direction) (s : State) :
    (∃ c, c.isFault = false ∧ c ≠ .ok ∧ bufferOp dir s = s.finish c) ∨
    (∃ c, c.isFault = true ∧ bufferOp dir s = s.raiseFault c) ∨
    (s.cfgValid = true ∧ ∃ o, s.bufferOperands = some o ∧ o.Passes s.config ∧
      bufferOp dir s = (s.setMem (s.bufferResult dir o)).finish .ok) := by
  unfold bufferOp
  split
  · exact .inl ⟨_, rfl, by simp, rfl⟩
  · next hc =>
    split
    · exact .inr (.inl ⟨_, rfl, rfl⟩)
    · next o ho =>
      split
      · exact .inl ⟨_, rfl, by simp, rfl⟩
      · next h1 =>
        split
        · exact .inl ⟨_, rfl, by simp, rfl⟩
        · next h2 =>
          split
          · exact .inr (.inl ⟨_, rfl, rfl⟩)
          · next h3 =>
            split
            · exact .inr (.inl ⟨_, rfl, rfl⟩)
            · next h4 =>
              have h3 := not_or.mp h3
              exact .inr (.inr ⟨by simpa using hc, o, ho,
                ⟨by simpa using h1, by omega, not_not.mp h3.1, not_not.mp h3.2, h4⟩, rfl⟩)

/-- BufferOp when every check passes (R81, R97 step 9). -/
theorem bufferOp_of_passes {dir : Direction} {s : State} {o : BufferArgs} (hc : s.cfgValid = true)
    (ho : s.bufferOperands = some o) (h : o.Passes s.config) :
    bufferOp dir s = (s.setMem (s.bufferResult dir o)).finish .ok := by
  have hs := h.src
  have hd := h.dst
  have ha := h.apart
  have hl := h.cap
  unfold bufferOp
  rw [if_neg (by simp [hc]), ho]
  simp only [h.len, ne_eq, not_true_eq_false, if_false]
  rw [if_neg (by omega), if_neg (by tauto), if_neg ha]
  rfl

/-- Ranges that pass the overlap check lie apart, block by block. -/
theorem BufferArgs.Passes.blocksApart {c : Config} {o : BufferArgs} (h : o.Passes c) :
    o.src.toNat + 8 * (o.len.toNat / 8) ≤ o.dst.toNat ∨ o.dst.toNat + 8 * (o.len.toNat / 8) ≤ o.src.toNat ∨
      o.len.toNat = 0 := by
  have h1 := h.len
  have h2 := h.apart
  simp only [overlap, not_and_or] at h2
  omega

theorem State.bufferResult_wf {dir : Direction} {s : State} {o : BufferArgs} (h : Memory.wf s.mem) :
    Memory.wf (s.bufferResult dir o) := transformBlocks_wf _ _ _ _ _ h

theorem State.bufferResult_within {dir : Direction} {s : State} {o : BufferArgs} (hp : o.Passes s.config)
    (h : Memory.within s.config.memSize s.mem) : Memory.within s.config.memSize (s.bufferResult dir o) :=
  transformBlocks_within _ _ _ _ _ h (by
    have h1 := hp.dst
    simp only [admitted] at h1
    omega)

/-- Output block `i` is the transform of input block `i` (R86). -/
theorem State.bufferResult_block {dir : Direction} {s : State} {o : BufferArgs} (hp : o.Passes s.config)
    (h : Memory.wf s.mem) {i : Nat} (hi : i < o.len.toNat / 8) :
    Memory.readBlock s.config.byteOrder (s.bufferResult dir o) (o.dst.toNat + 8 * i) =
      s.transform dir (Memory.readBlock s.config.byteOrder s.mem (o.src.toNat + 8 * i)) := by
  have ha := hp.blocksApart
  exact transformBlocks_block _ _ _ _ _ h (by omega) hi

/-- Bytes outside the output range read as before (R88). -/
theorem State.bufferResult_outside {dir : Direction} {s : State} {o : BufferArgs} (h : Memory.wf s.mem) {a : Nat}
    (ha : a < o.dst.toNat ∨ o.dst.toNat + o.len.toNat ≤ a) :
    Memory.read (s.bufferResult dir o) a = Memory.read s.mem a :=
  transformBlocks_outside _ _ _ _ _ h (by omega)

/-! ## Iteration -/

/-- The last of `n + 1` applications, peeled off at the end. -/
theorem iterate_succ_last {α : Type} (f : α → α) (n : Nat) (x : α) : iterate f (n + 1) x = f (iterate f n x) := by
  induction n generalizing x with
  | zero => rfl
  | succ n ih => exact ih (f x)

/-- A sequence whose first `n` steps are each one `f` holds at `n` what `iterate` gives. -/
theorem iterate_of_sequence {α : Type} {f : α → α} {x : Nat → α} (n : Nat) (h : ∀ j < n, x (j + 1) = f (x j)) :
    iterate f n (x 0) = x n := by
  induction n with
  | zero => rfl
  | succ n ih => rw [iterate_succ_last, ih fun j hj => h j (by omega), h n (by omega)]

/-- Iterating a left inverse undoes iterating the function, the last application first. -/
theorem iterate_leftInverse {α : Type} {f g : α → α} (h : ∀ x, g (f x) = x) (n : Nat) (x : α) :
    iterate g n (iterate f n x) = x := by
  induction n generalizing x with
  | zero => rfl
  | succ n ih =>
    rw [iterate_succ_last f]
    simp only [iterate, h, ih]

end Sys2Proof.Machine
end

