-- ==== Sys2Proof/Laws/Bus.lean ====
section
/-! SUPPORT. The register bus and the step: which register an access reaches, and everything one step can do
(10_state.md R18, R19; 20_memory.md R47). -/

namespace Sys2Proof.Machine

theorem Reg.offset_lt (r : Reg) : r.offset < 0x20 := by
  cases r with
  | arg n => have := n.isLt; simp only [Reg.offset]; omega
  | cmd => simp [Reg.offset]
  | status => simp [Reg.offset]
  | reserved n => have := n.isLt; simp only [Reg.offset]; omega

theorem Reg.offset_aligned (r : Reg) : r.offset % 4 = 0 := by
  cases r <;> simp only [Reg.offset] <;> omega

theorem regAtOffset_offset (r : Reg) : regAtOffset r.offset = r := by
  cases r with
  | arg n => fin_cases n <;> rfl
  | cmd => rfl
  | status => rfl
  | reserved n => fin_cases n <;> rfl

theorem offset_regAtOffset {k : Nat} (h : k < 0x20) (ha : k % 4 = 0) : (regAtOffset k).offset = k := by
  interval_cases k <;> first | rfl | omega

/-- An access reaches a register exactly when it is 4 bytes wide at that register's offset from REG_BASE (R18, R19). -/
theorem registerAt_eq_ok {c : Config} {addr bytes : Nat} {r : Reg} :
    registerAt c addr bytes = .ok r ↔ bytes = 4 ∧ addr = c.regBase + r.offset := by
  have hlt := r.offset_lt
  have hal := r.offset_aligned
  unfold registerAt
  constructor
  · intro h
    split at h
    · simp at h
    · next h1 =>
      split at h
      · simp at h
      · next h2 =>
        split at h
        · simp at h
        · next h3 =>
          obtain rfl := Except.ok.inj h
          have h1 := not_not.mp h1
          have h2 := not_not.mp h2
          have h3 := not_not.mp h3
          simp only [accessInBlock, accessIsAligned] at h2 h3
          refine ⟨h1, ?_⟩
          rw [offset_regAtOffset (by omega) h3]
          omega
  · rintro ⟨rfl, rfl⟩
    rw [if_neg (by simp), if_neg (by simp only [accessInBlock, not_not]; omega),
      if_neg (by simp only [accessIsAligned, not_not]; omega)]
    rw [Nat.add_sub_cancel_left, regAtOffset_offset]

/-- An access that fails a demand of R19 is refused, never under the name of an instruction. -/
theorem registerAt_error {c : Config} {addr bytes : Nat} (h : ¬ accessWf c addr bytes) :
    ∃ e, registerAt c addr bytes = .error e := by
  unfold registerAt
  split
  · exact ⟨_, rfl⟩
  · split
    · exact ⟨_, rfl⟩
    · split
      · exact ⟨_, rfl⟩
      · next h1 h2 h3 => exact absurd ⟨not_not.mp h1, not_not.mp h2, not_not.mp h3⟩ h

@[simp] theorem registerAt_reg (c : Config) (r : Reg) : registerAt c (c.regBase + r.offset) 4 = .ok r :=
  registerAt_eq_ok.mpr ⟨rfl, rfl⟩

theorem step_idle {s : State} (h : s.host.ops = []) : step s = .next s := by
  simp [step, hostStep, h]

theorem step_op {s : State} {op : HostOp} {rest : List HostOp} (h : s.host.ops = op :: rest) :
    step s = hostOp op (s.setOps rest) := by
  simp [step, hostStep, h]

@[simp] theorem hostOp_busWr (s : State) (r : Reg) (v : Word) : hostOp (busWr s.config r v) s = writeReg r v s := by
  simp [hostOp, busWr]

@[simp] theorem hostOp_busRd (s : State) (r : Reg) : hostOp (busRd s.config r) s = .next (readReg r s) := by
  simp [hostOp, busRd]

/-- A host write of a byte that exists (R35). -/
theorem hostOp_memWrite {s : State} {a : Word} (h : a.toNat < s.config.memSize) (v : Byte) :
    hostOp (.memWrite a v) s = .next (s.setMem (Memory.write s.mem a.toNat v)) := if_pos h

/-- A host write at or above MEM_SIZE stops (R35; log 9). -/
theorem hostOp_memWrite_out {s : State} {a : Word} (h : s.config.memSize ≤ a.toNat) (v : Byte) :
    hostOp (.memWrite a v) s = .fault .noSuchMemoryByte := if_neg (Nat.not_lt.mpr h)

/-- A host read of a byte that exists (R35). -/
theorem hostOp_memRead {s : State} {a : Word} (h : a.toNat < s.config.memSize) :
    hostOp (.memRead a) s = .next (s.reply (.byte (Memory.read s.mem a.toNat))) := if_pos h

/-- A host read at or above MEM_SIZE stops (R35; log 9). -/
theorem hostOp_memRead_out {s : State} {a : Word} (h : s.config.memSize ≤ a.toNat) :
    hostOp (.memRead a) s = .fault .noSuchMemoryByte := if_neg (Nat.not_lt.mpr h)

/-- `wr REG, v` as the next operation is the write of that register (R60). -/
theorem step_busWr {s : State} {r : Reg} {v : Word} {rest : List HostOp} (h : s.host.ops = busWr s.config r v :: rest) :
    step s = writeReg r v (s.setOps rest) := by
  rw [step_op h]
  exact hostOp_busWr (s.setOps rest) r v

/-- `rd REG` as the next operation is the read of that register (R60). -/
theorem step_busRd {s : State} {r : Reg} {rest : List HostOp} (h : s.host.ops = busRd s.config r :: rest) :
    step s = .next (readReg r (s.setOps rest)) := by
  rw [step_op h]
  exact hostOp_busRd (s.setOps rest) r

/-- Everything one host operation can do when it answers a next state. -/
theorem hostOp_cases {op : HostOp} {s t : State} (h : hostOp op s = .next t) :
    (∃ n v, op = busWr s.config (.arg n) v ∧ t = s.setArg n v) ∨
    (∃ w, op = busWr s.config .cmd w ∧ commandStep w s = .next t) ∨
    (∃ v, op = busWr s.config .status v ∧ t = s) ∨
    (∃ n v, op = busWr s.config (.reserved n) v ∧ t = s) ∨
    (∃ r, op = busRd s.config r ∧ t = readReg r s) ∨
    (∃ a v, op = .memWrite a v ∧ a.toNat < s.config.memSize ∧ t = s.setMem (Memory.write s.mem a.toNat v)) ∨
    (∃ a, op = .memRead a ∧ a.toNat < s.config.memSize ∧ t = s.reply (.byte (Memory.read s.mem a.toNat))) ∨
    (op = .reset ∧ t = s.hostReset) := by
  cases op with
  | busWrite addr bytes data =>
    simp only [hostOp] at h
    split at h
    · simp at h
    · next r hr =>
      obtain ⟨rfl, rfl⟩ := registerAt_eq_ok.mp hr
      cases r with
      | arg n => simp only [writeReg, Host.Outcome.next.injEq] at h; exact .inl ⟨n, data, rfl, h.symm⟩
      | cmd => exact .inr (.inl ⟨data, rfl, h⟩)
      | status =>
        simp only [writeReg, Host.Outcome.next.injEq] at h
        exact .inr (.inr (.inl ⟨data, rfl, h.symm⟩))
      | reserved n =>
        simp only [writeReg, Host.Outcome.next.injEq] at h
        exact .inr (.inr (.inr (.inl ⟨n, data, rfl, h.symm⟩)))
  | busRead addr bytes =>
    simp only [hostOp] at h
    split at h
    · simp at h
    · next r hr =>
      obtain ⟨rfl, rfl⟩ := registerAt_eq_ok.mp hr
      simp only [Host.Outcome.next.injEq] at h
      exact .inr (.inr (.inr (.inr (.inl ⟨r, rfl, h.symm⟩))))
  | memWrite a v =>
    simp only [hostOp] at h
    split at h
    · next ha =>
      simp only [Host.Outcome.next.injEq] at h
      exact .inr (.inr (.inr (.inr (.inr (.inl ⟨a, v, rfl, ha, h.symm⟩)))))
    · simp at h
  | memRead a =>
    simp only [hostOp] at h
    split at h
    · next ha =>
      simp only [Host.Outcome.next.injEq] at h
      exact .inr (.inr (.inr (.inr (.inr (.inr (.inl ⟨a, rfl, ha, h.symm⟩))))))
    · simp at h
  | reset =>
    simp only [hostOp, Host.Outcome.next.injEq] at h
    exact .inr (.inr (.inr (.inr (.inr (.inr (.inr ⟨rfl, h.symm⟩))))))

/-- One step idles or runs the host's next operation. -/
theorem step_cases {s t : State} (h : step s = .next t) :
    (s.host.ops = [] ∧ t = s) ∨
    (∃ op rest, s.host.ops = op :: rest ∧ hostOp op (s.setOps rest) = .next t) := by
  cases ho : s.host.ops with
  | nil => rw [step_idle ho] at h; exact .inl ⟨rfl, (Host.Outcome.next.inj h).symm⟩
  | cons op rest => rw [step_op ho] at h; exact .inr ⟨op, rest, rfl, h⟩

/-- A CMD write is an illegal word or one of the four commands, and it always answers a next state (R56). -/
theorem commandStep_cases (w : Word) (s : State) :
    (∃ e, decode w = .error e ∧ commandStep w s = .next (s.ifTaken (fun s => s.finish .illegalCommand))) ∨
    (∃ i, decode w = .ok i ∧ commandStep w s = exec i s) := by
  cases h : decode w with
  | error e => exact .inl ⟨e, rfl, by simp [commandStep, h]⟩
  | ok i => exact .inr ⟨i, rfl, by simp [commandStep, h]⟩

/-- Reads of registers change the host's side only. -/
theorem readReg_frame (r : Reg) (s : State) : readReg r s = { s with host := (readReg r s).host } := by
  cases r with
  | arg n => simp only [readReg]; split <;> rfl
  | cmd => rfl
  | status => rfl
  | reserved n => rfl

end Sys2Proof.Machine
end

