-- ==== Sys2Proof/Laws/PerInstr.lean ====
section
/-! SUPPORT. Statements about every command as syntax, one lemma per constructor. -/

/-- The command word keeps the format of 30_encoding.md R53: bits [31:4] are zero and OP is the word, one of the four
assigned codes; and the command is well formed. -/
def Sys2Proof.Laws.CommandFormat.Statement (i : Sys2Proof.Instr) : Prop :=
  Sys2Proof.mbzField (Sys2Proof.encode i) = 0#28 ∧
  (Sys2Proof.opField (Sys2Proof.encode i)).setWidth 32 = Sys2Proof.encode i ∧
  1 ≤ (Sys2Proof.opField (Sys2Proof.encode i)).toNat ∧ (Sys2Proof.opField (Sys2Proof.encode i)).toNat ≤ 4 ∧
  i.wellFormed = true

theorem Sys2Proof.Laws.CommandFormat.usingKey : Sys2Proof.Laws.CommandFormat.Statement .usingKey := by
  unfold Sys2Proof.Laws.CommandFormat.Statement; decide

theorem Sys2Proof.Laws.CommandFormat.withRounds : Sys2Proof.Laws.CommandFormat.Statement .withRounds := by
  unfold Sys2Proof.Laws.CommandFormat.Statement; decide

theorem Sys2Proof.Laws.CommandFormat.encipher : Sys2Proof.Laws.CommandFormat.Statement .encipher := by
  unfold Sys2Proof.Laws.CommandFormat.Statement; decide

theorem Sys2Proof.Laws.CommandFormat.decipher : Sys2Proof.Laws.CommandFormat.Statement .decipher := by
  unfold Sys2Proof.Laws.CommandFormat.Statement; decide
end

