-- ==== Sys2Proof/Laws/Run.lean ====
section
/-! SUPPORT. Runs of the machine, one step at a time. -/

namespace Sys2Proof.Machine

/-- A run of any machine: one step, then the rest (R47). -/
theorem core_run_succ (M : Host.Core) (k : Nat) (s : M.State) :
    M.run (k + 1) s =
      match M.step s with
      | .next t => M.run k t
      | .fault r => .fault r
      | .refused r => .refused r := rfl

theorem run_zero (s : State) : (Host.Core.run Sys2Proof.core 0 s : Host.Outcome State Fault Refusal) = .next s := rfl

theorem run_succ_of_next {k : Nat} {s t : State} (h : step s = .next t) :
    (Host.Core.run Sys2Proof.core (k + 1) s : Host.Outcome State Fault Refusal) =
      Host.Core.run Sys2Proof.core k t := by
  have hr := core_run_succ Sys2Proof.core k s
  rw [show Sys2Proof.core.step s = .next t from h] at hr
  exact hr

theorem run_succ_of_fault {k : Nat} {s : State} {r : Fault} (h : step s = .fault r) :
    (Host.Core.run Sys2Proof.core (k + 1) s : Host.Outcome State Fault Refusal) = .fault r := by
  have hr := core_run_succ Sys2Proof.core k s
  rw [show Sys2Proof.core.step s = .fault r from h] at hr
  exact hr

theorem run_succ_of_refused {k : Nat} {s : State} {r : Refusal} (h : step s = .refused r) :
    (Host.Core.run Sys2Proof.core (k + 1) s : Host.Outcome State Fault Refusal) = .refused r := by
  have hr := core_run_succ Sys2Proof.core k s
  rw [show Sys2Proof.core.step s = .refused r from h] at hr
  exact hr

theorem run_one (s : State) : (Host.Core.run Sys2Proof.core 1 s : Host.Outcome State Fault Refusal) = step s := by
  cases h : step s with
  | next t => exact run_succ_of_next h
  | fault r => exact run_succ_of_fault h
  | refused r => exact run_succ_of_refused h

end Sys2Proof.Machine
end

