-- ==== Sys2Proof/Tests/Slice0.lean ====
section
/-! SUPPORT. Tests: decoding words written out from the spec, ill-formed terms refused, one or two steps' worth of results per
command from 95_test_vectors.md and the rules' own examples, and a witness for every statement that has hypotheses. -/

namespace Sys2Proof.Tests

open Sys2Proof.Machine

/-! ## Helpers -/

/-- Key K1 of 95_test_vectors.md. -/
def keyK1 : Key := #v[0x00010203#32, 0x04050607#32, 0x08090A0B#32, 0x0C0D0E0F#32]

/-- Key K2 of 95_test_vectors.md. -/
def keyK2 : Key := #v[0x01234567#32, 0x89ABCDEF#32, 0xFEDCBA98#32, 0x76543210#32]

/-- Key Z of 95_test_vectors.md. -/
def keyZ : Key := #v[0#32, 0#32, 0#32, 0#32]

/-- DELTA of R6. -/
def delta : Word := 0x9E3779B9#32

/-- Reset with the four operand registers written, in a machine of `size` bytes of MEM. -/
def withArgs (size : Nat) (a0 a1 a2 a3 : Word) : State :=
  { State.reset with config := { Config.default with memSize := size }, arg := #v[some a0, some a1, some a2, some a3] }

/-- The same, configured. -/
def configured (size : Nat) (key : Key) (rounds a0 a1 a2 a3 : Word) (mem : Memory) : State :=
  { withArgs size a0 a1 a2 a3 with key := key, rounds := rounds, cfgValid := true, mem := mem }

/-- A configured state with key Z and 1 round, MEM_SIZE 0x100 and empty MEM (the setting of section 2.6). -/
def small (a0 a1 a2 a3 : Word) : State := configured 0x100 keyZ 1#32 a0 a1 a2 a3 []

/-- A state whose next host operation is `op`. -/
def thenOp (s : State) (op : HostOp) : State := s.setOps [op]

/-- The next state of an outcome, or the state given. -/
def nextOr (s : State) : Host.Outcome State Fault Refusal → State
  | .next t => t
  | .fault _ => s
  | .refused _ => s

/-- The state after one command. -/
def after (i : Instr) (s : State) : State := nextOr s (exec i s)

/-- The bytes of MEM at `a .. a + n - 1`. -/
def bytesAt (s : State) (a n : Nat) : List Byte := (List.range n).map fun k => Memory.read s.mem (a + k)

/-! ## Decoding: words written out bit by bit from 30_encoding.md R53, R54 -/

theorem test_decode_usingKey : decode 0b00000000000000000000000000000001#32 = .ok .usingKey := by decide
theorem test_decode_withRounds : decode 0b00000000000000000000000000000010#32 = .ok .withRounds := by decide
theorem test_decode_encipher : decode 0b00000000000000000000000000000011#32 = .ok .encipher := by decide
theorem test_decode_decipher : decode 0b00000000000000000000000000000100#32 = .ok .decipher := by decide

/-- Illegal words of 95_test_vectors.md section 2.1. -/
theorem test_decode_illegal :
    decode 0x00000000#32 = .error (.opUnassigned 0#4) ∧ decode 0x00000006#32 = .error (.opUnassigned 6#4) ∧
    decode 0x00000010#32 = .error .mustBeZeroSet ∧ decode 0x00000011#32 = .error .mustBeZeroSet ∧
    decode 0x00000103#32 = .error .mustBeZeroSet ∧ decode 0xFFFFFFFF#32 = .error .mustBeZeroSet := by decide

theorem test_decodeTableWord_rows :
    decodeTableWord 32 1 = some .usingKey ∧ decodeTableWord 32 2 = some .withRounds ∧
    decodeTableWord 32 3 = some .encipher ∧ decodeTableWord 32 4 = some .decipher ∧
    decodeTableWord 8 3 = some .encipher ∧ decodeTableWord 32 0x80000003 = none := by decide

/-! ## Ill-formed host accesses, one for each check (10_state.md R19, 20_memory.md R35) -/

theorem test_wf_instr (i : Instr) : i.wellFormed = true := by cases i <;> rfl
theorem test_wf_status : HostOp.wf Config.default (.busRead 0x14 4) := by decide
theorem test_illformed_halfword : ¬ HostOp.wf Config.default (.busWrite 0x00 2 7#32) := by decide
theorem test_illformed_outside : ¬ HostOp.wf Config.default (.busRead 0x20 4) := by decide
theorem test_illformed_below : ¬ HostOp.wf { Config.default with regBase := 0x40 } (.busRead 0x3C 4) := by decide
theorem test_illformed_misaligned : ¬ HostOp.wf Config.default (.busRead 0x02 4) := by decide
theorem test_illformed_memory : ¬ HostOp.wf { Config.default with memSize := 0x100 } (.memRead 0x100#32) := by decide

/-- Each ill-formed access is refused by the step under its own name. -/
theorem test_illformed_refused :
    step (thenOp State.reset (.busWrite 0x00 2 7#32)) = .refused .accessNotWord ∧
    step (thenOp State.reset (.busRead 0x20 4)) = .refused .accessOutsideBlock ∧
    step (thenOp State.reset (.busRead 0x02 4)) = .refused .accessMisaligned := ⟨rfl, rfl, rfl⟩

/-! ## The cipher's parts -/

/-- F of 41_feistel_round.md R70 and 95_test_vectors.md section 2.4. -/
theorem test_mix : mix 0x00000001#32 = 0x00000011#32 ∧ mix 0x0FFFFFFF#32 = 0x0F80000E#32 ∧
    mix 0xFFFFFFFF#32 = 0xF800000E#32 ∧ mix 0x12345678#32 = 0x36091BAB#32 := by decide

/-- Selectors of 95_test_vectors.md section 2.3. -/
theorem test_selectors : selA 0x000007FF#32 = 3 ∧ selB 0x000007FF#32 = 0 ∧ selB 0x00000800#32 = 1 ∧
    selB 0x00001000#32 = 2 ∧ selA delta = 1 ∧ selB delta = 3 := by decide

/-- Decipher start sums of 95_test_vectors.md section 2.3. -/
theorem test_start_sum : decipherStartSum delta 33#32 = 0x6526B0D9#32 ∧
    decipherStartSum delta 0xFFFFFFFF#32 = 0x61C88647#32 := by decide

/-- The worked round of 41_feistel_round.md R74, both ways. -/
theorem test_round :
    encipherRound delta keyK1 ⟨0x01234567#32, 0x89ABCDEF#32, 0#32⟩ = ⟨0x29BF91F4#32, 0xF7DCBFFA#32, delta⟩ ∧
    decipherRound delta keyK1 ⟨0x29BF91F4#32, 0xF7DCBFFA#32, delta⟩ = ⟨0x01234567#32, 0x89ABCDEF#32, 0#32⟩ := by
  decide

/-- V11, V12 and V21 of 95_test_vectors.md section 2.5. -/
theorem test_blocks :
    encipherBlock delta keyK2 5#32 ⟨0xDEADBEEF#32, 0xCAFEBABE#32⟩ = ⟨0x68C10DF5#32, 0xC4E85077#32⟩ ∧
    encipherBlock delta #v[0xFFFFFFFF#32, 0xFFFFFFFF#32, 0xFFFFFFFF#32, 0xFFFFFFFF#32] 32#32
      ⟨0xFFFFFFFF#32, 0xFFFFFFFF#32⟩ = ⟨0x28FC2891#32, 0xE623566A#32⟩ ∧
    decipherBlock delta keyZ 1#32 ⟨0#32, 0#32⟩ = ⟨0x7EB15977#32, 0x61C88647#32⟩ := by
  decide +kernel

/-- L-V2 of 95_test_vectors.md section 2.7: BYTE_ORDER = LE. -/
theorem test_little_endian :
    bytesAt (after .encipher { configured 0x100 keyK1 32#32 0#32 0x40#32 8#32 8#32
        [(0, 0x41#8), (1, 0x42#8), (2, 0x43#8), (3, 0x44#8), (4, 0x45#8), (5, 0x46#8), (6, 0x47#8), (7, 0x48#8)] with
      config := { Config.default with memSize := 0x100, byteOrder := .le } }) 0x40 8 =
      [0x50#8, 0x7E#8, 0x4E#8, 0xEC#8, 0xE3#8, 0xCF#8, 0xBD#8, 0x3E#8] := by
  decide +kernel

/-! ## USING_KEY -/

/-- The example of 40_key_schedule.md R62. -/
theorem test_usingKey_example :
    let t := after .usingKey (withArgs 0x100 0x01234567#32 0x89ABCDEF#32 0xFEDCBA98#32 0x76543210#32)
    t.key = keyK2 ∧ t.rounds = 32#32 ∧ t.statusWord = 0x00000100#32 := by decide

/-- Program P4 of 95_test_vectors.md, step 4: ARG3 unwritten, STATUS 0x207. -/
theorem test_usingKey_unwritten :
    (after .usingKey { State.reset with arg := #v[some 1#32, some 2#32, some 3#32, none] }).statusWord = 0x00000207#32 := by
  decide

/-! ## WITH_ROUNDS -/

/-- The example of 40_key_schedule.md R63. -/
theorem test_withRounds_example :
    let t := after .withRounds (configured 0x100 keyK2 32#32 16#32 0#32 0#32 0#32 [])
    t.key = keyK2 ∧ t.rounds = 16#32 ∧ t.statusWord = 0x00000100#32 := by decide

/-- 95_test_vectors.md section 2.1: word 0x2 straight after reset gives STATUS 0x00000003. -/
theorem test_withRounds_not_configured :
    (nextOr State.reset (step (State.reset.withFetchWord 32 2))).statusWord = 0x00000003#32 := by decide

/-! ## ENCIPHER -/

/-- The example of 43_buffer_iterator.md R90 (vector V1). -/
theorem test_encipher_example :
    let t := after .encipher (configured 0x1000 keyZ 32#32 0x100#32 0x200#32 8#32 8#32 [])
    bytesAt t 0x200 8 = [0xDE#8, 0xE9#8, 0xD4#8, 0xD8#8, 0xF7#8, 0x13#8, 0x1E#8, 0xD9#8] ∧ t.result = .ok := by
  decide +kernel

/-- Program P2 of 95_test_vectors.md, step 2: two blocks, and spare capacity untouched. -/
theorem test_encipher_two_blocks :
    bytesAt (after .encipher (configured 0x1000 keyK1 32#32 0#32 0x40#32 0x10#32 0x20#32
        [(0, 0x41#8), (1, 0x42#8), (2, 0x43#8), (3, 0x44#8), (4, 0x45#8), (5, 0x46#8), (6, 0x47#8), (7, 0x48#8),
         (0x50, 0xAA#8)])) 0x40 17 =
      [0x49#8, 0x7D#8, 0xF3#8, 0xD0#8, 0x72#8, 0x61#8, 0x2C#8, 0xB5#8,
       0xE4#8, 0xCF#8, 0x21#8, 0xF8#8, 0xAA#8, 0xE1#8, 0x3F#8, 0x64#8, 0xAA#8] := by
  decide +kernel

/-! ## DECIPHER -/

/-- The example of 43_buffer_iterator.md R91. -/
theorem test_decipher_example :
    let t := after .decipher (configured 0x1000 keyZ 32#32 0x200#32 0x300#32 8#32 8#32
      [(0x200, 0xDE#8), (0x201, 0xE9#8), (0x202, 0xD4#8), (0x203, 0xD8#8), (0x204, 0xF7#8), (0x205, 0x13#8),
       (0x206, 0x1E#8), (0x207, 0xD9#8), (0x300, 0x55#8)])
    bytesAt t 0x300 8 = [0#8, 0#8, 0#8, 0#8, 0#8, 0#8, 0#8, 0#8] ∧ t.mem.length = 8 := by
  decide +kernel

/-- V20 of 95_test_vectors.md section 2.5, at an odd address (20_memory.md R41). -/
theorem test_decipher_unaligned :
    bytesAt (after .decipher (configured 0x100 keyK2 32#32 0x10#32 0x21#32 8#32 8#32 [])) 0x21 8 =
      [0xFA#8, 0x4B#8, 0x04#8, 0xD2#8, 0xB1#8, 0x5A#8, 0x8F#8, 0xD9#8] := by
  decide +kernel

/-! ## Witnesses: for every statement with hypotheses, a state and operands that meet them all together -/

theorem witness_IllegalWordSetsResultOnly :
    (0x00000013#32 : Word).extractLsb' 4 28 ≠ 0#28 ∧ ((0x00000000#32 : Word).extractLsb' 0 4).toNat = 0 ∧
    5 ≤ ((0x00000005#32 : Word).extractLsb' 0 4).toNat ∧
    (let s := thenOp State.reset (busWr Config.default .cmd 0x00000005#32)
     s.fault = false ∧ s.host.ops = [busWr s.config .cmd 0x00000005#32]) ∧
    ¬ ((0x00000004#32 : Word).extractLsb' 4 28 ≠ 0#28 ∨ ((0x00000004#32 : Word).extractLsb' 0 4).toNat = 0 ∨
      5 ≤ ((0x00000004#32 : Word).extractLsb' 0 4).toNat) := by decide

theorem witness_DecodeEncodeAgree : ∀ i : Instr, (0x00000005#32 : Word) ≠ encode i := by
  intro i; cases i <;> decide

theorem witness_StepRunsDecodedCommand :
    let s := thenOp State.reset (.busWrite 0x10 4 0x00000001#32)
    s.host.ops = [.busWrite (s.config.regBase + 0x10) 4 0x00000001#32] ∧ decode 0x00000001#32 = .ok .usingKey := by decide

theorem witness_IdleEngineKeepsState : State.reset.host.ops = [] := rfl

theorem witness_PseudoInstructionExpands :
    let s := State.reset.setOps (Pseudo.expand Config.default (.usingKey 1#32 2#32 3#32 4#32) ++ [.reset])
    s.host.ops = Pseudo.expand s.config (.usingKey 1#32 2#32 3#32 4#32) ++ [.reset] := rfl

theorem witness_UsingKeyLoadsConfiguration :
    (withArgs 0x100 1#32 2#32 3#32 4#32).fault = false ∧
    (withArgs 0x100 1#32 2#32 3#32 4#32).arg = #v[some 1#32, some 2#32, some 3#32, some 4#32] ∧
    State.reset.fault = false ∧ ∃ n : Fin 4, State.reset.arg[n] = none := by decide

theorem witness_WithRoundsSetsRounds :
    (small 0#32 0#32 0#32 0#32).fault = false ∧ (small 0#32 0#32 0#32 0#32).cfgValid = true ∧
    (small 0#32 0#32 0#32 0#32).arg[0] = some 0#32 ∧ State.reset.fault = false ∧ State.reset.cfgValid = false ∧
    (let s := { State.reset with cfgValid := true }; s.fault = false ∧ s.cfgValid = true ∧ s.arg[0] = none) := by decide

theorem witness_ConfigurationCommandsFrame :
    (∃ t, exec .usingKey (withArgs 0x100 1#32 2#32 3#32 4#32) = .next t ∧ t.result = .ok) ∧
    (∃ t, exec .withRounds State.reset = .next t ∧ t.result ≠ .ok) := ⟨⟨_, rfl, rfl⟩, ⟨_, rfl, by decide⟩⟩

theorem witness_CfgValidGatesCommands :
    (withArgs 0x100 1#32 2#32 3#32 4#32).fault = false ∧
    (withArgs 0x100 1#32 2#32 3#32 4#32).arg = #v[some 1#32, some 2#32, some 3#32, some 4#32] ∧
    (∃ t, commandStep 0x00000004#32 (small 0#32 8#32 8#32 8#32) = .next t ∧
      (small 0#32 8#32 8#32 8#32).cfgValid = true) ∧
    (∃ t, step (thenOp (small 0#32 8#32 8#32 8#32) .reset) = .next t ∧
      (thenOp (small 0#32 8#32 8#32 8#32) .reset).cfgValid = true ∧ t.cfgValid = false) ∧
    State.reset.fault = false ∧ State.reset.cfgValid = false :=
  ⟨rfl, rfl, ⟨_, rfl, rfl⟩, ⟨_, rfl, rfl, rfl⟩, rfl, rfl⟩

theorem witness_EncipherSumSchedule :
    (0#32 : Word).toNat + 1 < 2 ^ 32 ∧ (0xFFFFFFFE#32 : Word).toNat + 1 < 2 ^ 32 := by decide

theorem witness_DecipherSumSchedule :
    0 < (1#32 : Word).toNat ∧ 31 < (32#32 : Word).toNat ∧ (0xFFFFFFFE#32 : Word).toNat + 1 < 2 ^ 32 := by decide

/-- The loop of R75 and of R76 over one block, with the default round count: the two hypotheses of each clause hold together. -/
theorem witness_BlockTransformsRunRounds :
    let key : Key := #v[0#32, 1#32, 2#32, 3#32]
    let up : Nat → RoundState := fun j => iterate (encipherRound 0x9E3779B9#32 key) j { v0 := 5#32, v1 := 6#32, sum := 0#32 }
    let down : Nat → RoundState := fun j =>
      iterate (decipherRound 0x9E3779B9#32 key) j { v0 := 5#32, v1 := 6#32, sum := 0xC6EF3720#32 }
    (up 0 = { v0 := 5#32, v1 := 6#32, sum := 0#32 } ∧
      ∀ j < (32#32 : Word).toNat, up (j + 1) = encipherRound 0x9E3779B9#32 key (up j)) ∧
    (down 0 = { v0 := 5#32, v1 := 6#32, sum := BitVec.ofNat 32 ((32#32 : Word).toNat * (0x9E3779B9#32 : Word).toNat) } ∧
      ∀ j < (32#32 : Word).toNat, down (j + 1) = decipherRound 0x9E3779B9#32 key (down j)) :=
  ⟨⟨rfl, fun j _ => iterate_succ_last _ j _⟩, rfl, fun j _ => iterate_succ_last _ j _⟩

/-- Rows B4, B11 and B17 of 95_test_vectors.md section 2.6, and the empty buffer of B3: ENCIPHER and DECIPHER are ready there,
with MEM in its canonical form. -/
theorem witness_BufferReady :
    Memory.wf (small 0#32 0x80#32 8#32 8#32).mem ∧
    (small 0#32 0x80#32 8#32 8#32).BufferReady 0#32 0x80#32 8#32 8#32 ∧
    (small 0xF8#32 0#32 8#32 8#32).BufferReady 0xF8#32 0#32 8#32 8#32 ∧
    (small 0#32 8#32 8#32 8#32).BufferReady 0#32 8#32 8#32 8#32 ∧
    (small 0xFFFFFFFF#32 0#32 0#32 0xFFFFFFFF#32).BufferReady 0xFFFFFFFF#32 0#32 0#32 0xFFFFFFFF#32 := by
  refine ⟨by decide, ?_, ?_, ?_, ?_⟩ <;>
    exact ⟨by decide, by decide, by decide, by decide, by decide, by decide, by decide, by decide⟩

theorem witness_EncipherTransformsEveryBlock :
    (small 0#32 0x80#32 8#32 8#32).BufferReady 0#32 0x80#32 8#32 8#32 ∧ 0 < (8#32 : Word).toNat / 8 ∧
    (0x7F < (0x80#32 : Word).toNat ∨ (0x80#32 : Word).toNat + (8#32 : Word).toNat ≤ 0x88) :=
  ⟨witness_BufferReady.2.1, by decide, by decide⟩

theorem witness_DecipherTransformsEveryBlock :
    Memory.wf (small 0#32 8#32 8#32 8#32).mem ∧ (small 0#32 8#32 8#32 8#32).BufferReady 0#32 8#32 8#32 8#32 ∧
    0 < (8#32 : Word).toNat / 8 :=
  ⟨by decide, witness_BufferReady.2.2.2.1, by decide⟩

theorem witness_BlockBytesBigEndian :
    (small 0#32 8#32 8#32 8#32).config.byteOrder = .be ∧ (small 0#32 8#32 8#32 8#32).BufferReady 0#32 8#32 8#32 8#32 ∧
    (∃ t, exec Direction.enc.command (small 0#32 8#32 8#32 8#32) = .next t) ∧ 0 < (8#32 : Word).toNat / 8 :=
  ⟨rfl, witness_BufferReady.2.2.2.1, ⟨_, rfl⟩, by decide⟩

theorem witness_WordBytesLittleEndian : Memory.wf [(3, 0x55#8), (7, 0x66#8)] := by decide

/-- Rows B6 (length 9, INVALID_LENGTH), B1 (0) and B4 (8). -/
theorem witness_LengthCheck :
    (small 0#32 0x80#32 9#32 0x64#32).fault = false ∧ (small 0#32 0x80#32 9#32 0x64#32).cfgValid = true ∧
    (small 0#32 0x80#32 9#32 0x64#32).arg = #v[some 0#32, some 0x80#32, some 9#32, some 0x64#32] ∧
    (9#32 : Word).toNat % 8 ≠ 0 ∧ (0#32 : Word).toNat % 8 = 0 ∧ (8#32 : Word).toNat % 8 = 0 := by decide

/-- Rows B5 (capacity 7) and B4 (capacity 8). -/
theorem witness_CapacityCheck :
    (small 0#32 0x80#32 8#32 7#32).fault = false ∧ (small 0#32 0x80#32 8#32 7#32).cfgValid = true ∧
    (small 0#32 0x80#32 8#32 7#32).arg = #v[some 0#32, some 0x80#32, some 8#32, some 7#32] ∧
    (8#32 : Word).toNat % 8 = 0 ∧ (7#32 : Word).toNat < (8#32 : Word).toNat ∧ (8#32 : Word).toNat ≤ (8#32 : Word).toNat := by
  decide

/-- Rows B12 (one byte past the end), B15 (no wrap) and B11 (ends exactly at MEM_SIZE). -/
theorem witness_RangeCheck :
    (small 0xF9#32 0#32 8#32 8#32).fault = false ∧ (small 0xF9#32 0#32 8#32 8#32).cfgValid = true ∧
    (small 0xF9#32 0#32 8#32 8#32).arg = #v[some 0xF9#32, some 0#32, some 8#32, some 8#32] ∧
    ¬ ((8#32 : Word).toNat = 0 ∨ (0xF9#32 : Word).toNat + (8#32 : Word).toNat ≤ 0x100) ∧
    ¬ ((8#32 : Word).toNat = 0 ∨ (0xFFFFFFF8#32 : Word).toNat + (8#32 : Word).toNat ≤ 0x100) ∧
    (0xF8#32 : Word).toNat + (8#32 : Word).toNat ≤ (small 0xF8#32 0#32 8#32 8#32).config.memSize := by decide

/-- Rows B19 (one byte shared), B21 (in place) and B17 (adjacent). -/
theorem witness_OverlapCheck :
    (small 0#32 7#32 8#32 8#32).fault = false ∧ (small 0#32 7#32 8#32 8#32).cfgValid = true ∧
    (small 0#32 7#32 8#32 8#32).arg = #v[some 0#32, some 7#32, some 8#32, some 8#32] ∧
    admitted (small 0#32 7#32 8#32 8#32).config.memSize 7 8 ∧ overlap 0 7 8 ∧ overlap 0 0 8 ∧ ¬ overlap 0 8 8 := by decide

theorem witness_EmptyBufferIsOk :
    (small 0xFFFFFFFF#32 0#32 0#32 0xFFFFFFFF#32).fault = false ∧
    (small 0xFFFFFFFF#32 0#32 0#32 0xFFFFFFFF#32).cfgValid = true ∧
    (small 0xFFFFFFFF#32 0#32 0#32 0xFFFFFFFF#32).arg = #v[some 0xFFFFFFFF#32, some 0#32, some 0#32, some 0xFFFFFFFF#32] := by
  decide

theorem witness_BufferCommandsFrame :
    Memory.wf (small 0#32 8#32 8#32 8#32).mem ∧ (∃ t, exec Direction.enc.command (small 0#32 8#32 8#32 8#32) = .next t) ∧
    (small 0#32 8#32 8#32 8#32).arg = #v[some 0#32, some 8#32, some 8#32, some 8#32] ∧
    (∃ t, exec Direction.dec.command State.reset = .next t) ∧ ∃ n : Fin 4, State.reset.arg[n] = none :=
  ⟨by decide, ⟨_, rfl⟩, rfl, ⟨_, rfl⟩, ⟨0, rfl⟩⟩

theorem witness_ZeroRoundsCopyBuffer :
    (configured 0x100 keyK1 0#32 0#32 8#32 8#32 8#32 [(0, 0x41#8)]).BufferReady 0#32 8#32 8#32 8#32 ∧
    Memory.wf (configured 0x100 keyK1 0#32 0#32 8#32 8#32 8#32 [(0, 0x41#8)]).mem :=
  ⟨⟨by decide, by decide, by decide, by decide, by decide, by decide, by decide, by decide⟩, by decide⟩

/-- Two commands with one configuration, one over a single block, one over two equal blocks elsewhere. -/
theorem witness_EqualBlocksEqualResults :
    (small 0#32 0x80#32 8#32 8#32).BufferReady 0#32 0x80#32 8#32 8#32 ∧
    (small 0x20#32 0x40#32 0x10#32 0x10#32).BufferReady 0x20#32 0x40#32 0x10#32 0x10#32 ∧
    (small 0#32 0x80#32 8#32 8#32).config = (small 0x20#32 0x40#32 0x10#32 0x10#32).config ∧
    (∃ t, exec .encipher (small 0#32 0x80#32 8#32 8#32) = .next t) ∧
    (∃ t, exec .encipher (small 0x20#32 0x40#32 0x10#32 0x10#32) = .next t) ∧ 1 < (0x10#32 : Word).toNat / 8 ∧
    Memory.readBlock .be (small 0#32 0x80#32 8#32 8#32).mem 0 =
      Memory.readBlock .be (small 0x20#32 0x40#32 0x10#32 0x10#32).mem (0x20 + 8 * 1) :=
  ⟨witness_BufferReady.2.1, ⟨by decide, by decide, by decide, by decide, by decide, by decide, by decide, by decide⟩, rfl,
    ⟨_, rfl⟩, ⟨_, rfl⟩, by decide, by decide⟩

/-- ENCIPHER of 0x00 into 0x08, then the host writes ARG and DECIPHER goes from 0x08 into 0x10 (program P6). -/
theorem witness_BufferRoundTrip :
    let s := small 0#32 8#32 8#32 8#32
    let t := after .encipher s
    let u := { t with arg := #v[some 8#32, some 0x10#32, some 8#32, some 8#32] }
    Memory.wf s.mem ∧ Memory.wf u.mem ∧ s.fault = false ∧ s.arg = #v[some 0#32, some 8#32, some 8#32, some 8#32] ∧
    exec .encipher s = .next t ∧ t.result = .ok ∧ u.BufferReady 8#32 0x10#32 8#32 8#32 ∧ u.key = t.key ∧
    u.rounds = t.rounds ∧ u.config = t.config :=
  ⟨by decide, by decide +kernel, rfl, rfl, rfl, by decide +kernel,
    ⟨by decide +kernel, by decide +kernel, by decide, by decide, by decide, by decide +kernel, by decide +kernel,
      by decide⟩, rfl, rfl, rfl⟩

/-- A state for each row of R97: not configured, unwritten, length, capacity, range, overlap, and none. -/
theorem witness_FirstCheckDecides :
    checkOutcome 0x00000005#32 State.reset = .illegalCommand ∧ checkOutcome 0x00000003#32 State.reset = .notConfigured ∧
    checkOutcome 0x00000001#32 State.reset = .argUnwritten ∧
    checkOutcome 0x00000003#32 (small 0xF9#32 0xF9#32 9#32 0#32) = .invalidLength ∧
    checkOutcome 0x00000003#32 (small 0xF9#32 0xF9#32 8#32 7#32) = .insufficientOutputCapacity ∧
    checkOutcome 0x00000003#32 (small 0xF9#32 0xF9#32 8#32 8#32) = .bufferRange ∧
    checkOutcome 0x00000003#32 (small 0xF8#32 0xF8#32 8#32 8#32) = .bufferOverlap ∧
    checkOutcome 0x00000003#32 (small 0xF8#32 0xF0#32 8#32 8#32) = .ok ∧
    (small 0xF8#32 0xF0#32 8#32 8#32).fault = false ∧
    ((small 0xF8#32 0xF0#32 8#32 8#32).raiseFault .bufferRange).fault = true := by decide

theorem witness_ErrorsAndFaultsWriteStatusOnly :
    (∃ t, commandStep 0x00000005#32 State.reset = .next t ∧ State.reset.fault = false ∧ 1 ≤ t.result.code.toNat ∧
      t.result.code.toNat ≤ 4) ∧
    (∃ t, commandStep 0x00000001#32 State.reset = .next t ∧ 5 ≤ t.result.code.toNat) ∧
    (∃ t, commandStep 0x00000001#32 (withArgs 0x100 1#32 2#32 3#32 4#32) = .next t ∧ t.result.code = 0#4) :=
  ⟨⟨_, rfl, rfl, by decide, by decide⟩, ⟨_, rfl, by decide⟩, ⟨_, rfl, by decide⟩⟩

theorem witness_FaultStopsEngineUntilReset :
    let s := (small 0#32 8#32 8#32 8#32).raiseFault .bufferRange
    s.fault = true ∧ s.arg[(3 : Fin 4)] = some 8#32 ∧
    (thenOp s (busWr s.config .cmd 1#32)).host.ops = [busWr s.config .cmd 1#32] ∧
    (∃ t, step (thenOp s (busWr s.config (.arg 3) 1#32)) = .next t ∧
      (thenOp s (busWr s.config (.arg 3) 1#32)).nextOpNotReset) ∧
    (thenOp s .reset).host.ops = [.reset] := ⟨rfl, rfl, rfl, ⟨_, rfl, by decide⟩, rfl⟩

theorem witness_FaultLastsThroughRun :
    let s := thenOp (State.reset.raiseFault .argUnwritten) (busWr Config.default .cmd 1#32)
    s.fault = true ∧ HostOp.reset ∉ s.host.ops ∧
    ∃ t, (Host.Core.run Sys2Proof.core 3 s : Host.Outcome State Fault Refusal) = .next t :=
  ⟨rfl, by decide, ⟨_, rfl⟩⟩

theorem witness_StatusRegister :
    (thenOp State.reset (.busRead 0x14 4)).host.ops = [.busRead (State.reset.config.regBase + 0x14) 4] ∧
    (thenOp State.reset (.busWrite 0x14 4 0xFFFFFFFF#32)).host.ops =
      [.busWrite (State.reset.config.regBase + 0x14) 4 0xFFFFFFFF#32] := ⟨rfl, rfl⟩

theorem witness_CmdRegister :
    (thenOp State.reset (.busRead 0x10 4)).host.ops = [.busRead (State.reset.config.regBase + 0x10) 4] ∧
    (thenOp State.reset (.busWrite 0x10 4 9#32)).host.ops = [.busWrite (State.reset.config.regBase + 0x10) 4 9#32] :=
  ⟨rfl, rfl⟩

theorem witness_ReservedRegistersAreInert :
    (thenOp State.reset (.busRead 0x18 4)).host.ops = [.busRead (State.reset.config.regBase + 0x18) 4] ∧
    (thenOp State.reset (.busWrite 0x1C 4 9#32)).host.ops = [.busWrite (State.reset.config.regBase + 0x1C) 4 9#32] :=
  ⟨rfl, rfl⟩

theorem witness_ArgRegisterReads :
    (thenOp State.reset (.busRead 0x0C 4)).host.ops = [.busRead (State.reset.config.regBase + 4 * (3 : Fin 4).val) 4] ∧
    State.reset.arg[(3 : Fin 4)] = none ∧ (small 0#32 8#32 8#32 7#32).arg[(3 : Fin 4)] = some 7#32 ∧
    State.reset.fault = false ∧ (∃ n : Fin 4, State.reset.arg[n] = none) ∧
    (let s := { State.reset with cfgValid := true }
     s.fault = false ∧ s.cfgValid = true ∧ s.arg[0] = none) := by decide

theorem witness_ArgRegisterWrites :
    let s := thenOp State.reset (.busWrite 0x0C 4 5#32)
    s.host.ops = [.busWrite (s.config.regBase + 4 * (3 : Fin 4).val) 4 5#32] ∧
    ∃ t, step s = .next t ∧ t.arg[(3 : Fin 4)] ≠ s.arg[(3 : Fin 4)] := ⟨rfl, _, rfl, by decide⟩

/-- The last register of the block at a REG_BASE of 0x40, and an access just below it and just above it. -/
theorem witness_OnlyWordAccessesInsideBlock :
    let s := { State.reset with config := { Config.default with regBase := 0x40 } }
    s.config.regBase ≤ 0x5C ∧ 0x5C < s.config.regBase + 0x20 ∧ (0x5C - s.config.regBase) % 4 = 0 ∧
    0x3C < s.config.regBase ∧ s.config.regBase + 0x20 ≤ 0x60 ∧ (0x42 - s.config.regBase) % 4 ≠ 0 ∧
    (thenOp s (.busRead 0x5C 4)).host.ops = [.busRead 0x5C 4] := by decide

theorem witness_ConfigurationWriters :
    let s := (withArgs 0x100 1#32 2#32 3#32 4#32).withFetchWord 32 1
    s.nextOpNotReset ∧ ∃ t, step s = .next t ∧ t.key ≠ s.key ∧ t.rounds ≠ s.rounds ∧ t.cfgValid ≠ s.cfgValid :=
  ⟨by decide, _, rfl, by decide, by decide, by decide⟩

theorem witness_StatusAndMemoryWriters :
    (∃ t, step (State.reset.withFetchWord 32 1) = .next t ∧ t.result ≠ State.reset.result ∧ t.fault ≠ State.reset.fault) ∧
    (∃ t, step (thenOp State.reset (.memWrite 5#32 0x66#8)) = .next t ∧ t.mem ≠ State.reset.mem) :=
  ⟨⟨_, rfl, by decide, by decide⟩, ⟨_, rfl, by decide⟩⟩

theorem witness_EveryStep_next : ∃ t, step (State.reset.withFetchWord 32 4) = .next t := ⟨_, rfl⟩

theorem witness_HostMemoryAccess :
    Memory.wf (small 0#32 0#32 0#32 0#32).mem ∧ (0xFF#32 : Word).toNat < (small 0#32 0#32 0#32 0#32).config.memSize ∧
    (small 0#32 0#32 0#32 0#32).config.memSize ≤ (0x100#32 : Word).toNat ∧
    (thenOp State.reset (.memWrite 5#32 0x66#8)).host.ops = [.memWrite 5#32 0x66#8] ∧
    (thenOp State.reset (.memRead 5#32)).host.ops = [.memRead 5#32] := by decide

theorem witness_HostResetKeepsMemory : (thenOp State.reset .reset).host.ops = [.reset] := rfl

theorem witness_StepKeepsInv : State.reset.Inv ∧ ∃ t, step State.reset = .next t :=
  ⟨⟨by decide, by decide, by decide, by decide⟩, _, rfl⟩

/-- Two reset states that differ in KEY and ROUNDS alone. -/
theorem witness_UnconfiguredKeyIsUnobservable :
    let s := { State.reset with key := keyK1, rounds := 7#32 }
    State.reset.observable = s.observable ∧ State.reset ≠ s ∧
    (∃ t, (Host.Core.run Sys2Proof.core 1 State.reset : Host.Outcome State Fault Refusal) = .next t) ∧
    ∃ t, (Host.Core.run Sys2Proof.core 1 s : Host.Outcome State Fault Refusal) = .next t :=
  ⟨by decide, by decide, ⟨_, rfl⟩, ⟨_, rfl⟩⟩

theorem witness_KeyHasNoReadPath :
    (thenOp State.reset (.busRead 0x14 4)).host.ops = [.busRead 0x14 4] ∧
    (thenOp State.reset (.memRead 5#32)).host.ops = [.memRead 5#32] := ⟨rfl, rfl⟩

end Sys2Proof.Tests
end

/-! SUPPORT. The state's family of statements (10_state.md): everything one CMD write can do, what a host operation does to
ARG and CFG_VALID, the fields of STATUS; then the statements themselves. -/

namespace Sys2Proof.Machine

/-! ## Commands -/

@[simp] theorem exec_directionCommand (dir : Direction) (s : State) :
    exec dir.command s = .next (s.ifTaken (bufferOp dir)) := by
  cases dir with
  | enc => rfl
  | dec => rfl

/-- No command stops the model (R56). -/
theorem exec_next (i : Instr) (s : State) : ∃ t, exec i s = .next t := by
  cases i with
  | usingKey => exact ⟨_, rfl⟩
  | withRounds => exact ⟨_, rfl⟩
  | encipher => exact ⟨_, rfl⟩
  | decipher => exact ⟨_, rfl⟩

/-- No CMD write stops the model (R56, R57). -/
theorem commandStep_next (w : Word) (s : State) : ∃ t, commandStep w s = .next t := by
  obtain ⟨_, _, h⟩ | ⟨i, _, h⟩ := commandStep_cases w s
  · exact ⟨_, h⟩
  · rw [h]; exact exec_next i s

theorem exec_of_fault (i : Instr) {s : State} (hf : s.fault = true) : exec i s = .next s := by
  cases i with
  | usingKey => simp [hf]
  | withRounds => simp [hf]
  | encipher => simp [hf]
  | decipher => simp [hf]

/-- A command on a faulted engine changes nothing (R98). -/
theorem commandStep_of_fault (w : Word) {s : State} (hf : s.fault = true) : commandStep w s = .next s := by
  obtain ⟨_, _, h⟩ | ⟨i, _, h⟩ := commandStep_cases w s
  · rw [h, State.ifTaken_of_fault hf]
  · rw [h, exec_of_fault i hf]

theorem withRounds_of_notConfigured {s : State} (hc : s.cfgValid = false) :
    withRounds s = s.finish .notConfigured := if_pos hc

theorem bufferOp_of_notConfigured (dir : Direction) {s : State} (hc : s.cfgValid = false) :
    bufferOp dir s = s.finish .notConfigured := if_pos hc

theorem usingKey_of_unwritten {s : State} (hn : ∃ n : Fin 4, s.arg[n] = none) :
    usingKey s = s.raiseFault .argUnwritten := by
  simp [usingKey, State.keyOperand_eq_none.mpr hn]

theorem withRounds_of_unwritten {s : State} (hc : s.cfgValid = true) (hn : s.arg[0] = none) :
    withRounds s = s.raiseFault .argUnwritten := by
  simp [withRounds, hc, State.roundsOperand, hn]

theorem bufferOp_of_unwritten (dir : Direction) {s : State} (hc : s.cfgValid = true)
    (hn : ∃ n : Fin 4, s.arg[n] = none) : bufferOp dir s = s.raiseFault .argUnwritten := by
  simp [bufferOp, hc, State.bufferOperands_eq_none.mpr hn]

theorem usingKey_of_written {s : State} {k0 k1 k2 k3 : Word} (ha : s.arg = #v[some k0, some k1, some k2, some k3]) :
    usingKey s = (s.setConfiguration #v[k0, k1, k2, k3] defaultRounds).finish .ok := by
  simp [usingKey, State.keyOperand_eq_some.mpr ha]

/-- Everything one write of `w` to CMD can do (R56, R62, R63, R81, R98), with the conditions it does it under. -/
inductive CommandEffect (w : Word) (s : State) : State → Prop
  | notTaken (hf : s.fault = true) : CommandEffect w s s
  | errored (c : ResultCode) (hf : s.fault = false) (hc : c.isFault = false) (hok : c ≠ .ok) :
      CommandEffect w s (s.finish c)
  | faulted (c : ResultCode) (hf : s.fault = false) (hc : c.isFault = true) : CommandEffect w s (s.raiseFault c)
  | configured (k0 k1 k2 k3 : Word) (hf : s.fault = false) (hw : decode w = .ok .usingKey)
      (ha : s.arg = #v[some k0, some k1, some k2, some k3]) :
      CommandEffect w s ((s.setConfiguration #v[k0, k1, k2, k3] defaultRounds).finish .ok)
  | roundsSet (n : Word) (hf : s.fault = false) (hw : decode w = .ok .withRounds) (hv : s.cfgValid = true)
      (ha : s.arg[0] = some n) : CommandEffect w s ((s.setRounds n).finish .ok)
  | transformed (dir : Direction) (o : BufferArgs) (hf : s.fault = false) (hw : decode w = .ok dir.command)
      (hv : s.cfgValid = true) (ho : s.bufferOperands = some o) (hp : o.Passes s.config) :
      CommandEffect w s ((s.setMem (s.bufferResult dir o)).finish .ok)

theorem usingKey_effect {w : Word} {s : State} (hf : s.fault = false) (hw : decode w = .ok .usingKey) :
    CommandEffect w s (usingKey s) := by
  obtain ⟨_, h⟩ | ⟨k0, k1, k2, k3, ha, h⟩ := usingKey_cases s
  · rw [h]; exact .faulted _ hf rfl
  · rw [h]; exact .configured k0 k1 k2 k3 hf hw ha

theorem withRounds_effect {w : Word} {s : State} (hf : s.fault = false) (hw : decode w = .ok .withRounds) :
    CommandEffect w s (withRounds s) := by
  obtain ⟨_, h⟩ | ⟨_, _, h⟩ | ⟨hv, n, ha, h⟩ := withRounds_cases s
  · rw [h]; exact .errored _ hf rfl (by decide)
  · rw [h]; exact .faulted _ hf rfl
  · rw [h]; exact .roundsSet n hf hw hv ha

theorem bufferOp_effect {w : Word} {s : State} (dir : Direction) (hf : s.fault = false)
    (hw : decode w = .ok dir.command) : CommandEffect w s (bufferOp dir s) := by
  obtain ⟨c, hc, hok, h⟩ | ⟨c, hc, h⟩ | ⟨hv, o, ho, hp, h⟩ := bufferOp_cases dir s
  · rw [h]; exact .errored c hf hc hok
  · rw [h]; exact .faulted c hf hc
  · rw [h]; exact .transformed dir o hf hw hv ho hp

/-- The inversion of a CMD write. -/
theorem commandStep_effect {w : Word} {s t : State} (h : commandStep w s = .next t) : CommandEffect w s t := by
  cases hf : s.fault with
  | true =>
    obtain rfl : s = t := Host.Outcome.next.inj ((commandStep_of_fault w hf).symm.trans h)
    exact .notTaken hf
  | false =>
    obtain ⟨_, _, hs⟩ | ⟨i, hw, hs⟩ := commandStep_cases w s
    · rw [hs, State.ifTaken_of_clear hf] at h
      cases h
      exact .errored _ hf rfl (by decide)
    · rw [hs] at h
      cases i with
      | usingKey =>
        rw [exec_usingKey, State.ifTaken_of_clear hf] at h; cases h; exact usingKey_effect hf hw
      | withRounds =>
        rw [exec_withRounds, State.ifTaken_of_clear hf] at h; cases h; exact withRounds_effect hf hw
      | encipher =>
        rw [exec_encipher, State.ifTaken_of_clear hf] at h; cases h; exact bufferOp_effect .enc hf hw
      | decipher =>
        rw [exec_decipher, State.ifTaken_of_clear hf] at h; cases h; exact bufferOp_effect .dec hf hw

/-- No command writes an ARG register (R21). -/
theorem commandStep_arg {w : Word} {s t : State} (h : commandStep w s = .next t) : t.arg = s.arg := by
  cases commandStep_effect h with
  | notTaken | errored | faulted | configured | roundsSet | transformed => rfl

/-- No command clears CFG_VALID (R29). -/
theorem commandStep_cfgValid {w : Word} {s t : State} (h : commandStep w s = .next t) (hv : s.cfgValid = true) :
    t.cfgValid = true := by
  cases commandStep_effect h with
  | configured => rfl
  | notTaken | errored | faulted | roundsSet | transformed => exact hv

/-- MEM after BufferOp: as before, or every block transformed after every check passed (R81). -/
theorem bufferOp_mem (dir : Direction) (s : State) :
    (bufferOp dir s).mem = s.mem ∨
    ∃ o, s.bufferOperands = some o ∧ o.Passes s.config ∧ (bufferOp dir s).mem = s.bufferResult dir o := by
  obtain ⟨_, _, _, h⟩ | ⟨_, _, h⟩ | ⟨_, o, ho, hp, h⟩ := bufferOp_cases dir s
  · exact .inl (by rw [h]; rfl)
  · exact .inl (by rw [h]; rfl)
  · exact .inr ⟨o, ho, hp, by rw [h]; rfl⟩

/-- BufferOp writes STATUS.FAULT, STATUS.RESULT and MEM only (R26). -/
theorem bufferOp_frame (dir : Direction) (s : State) :
    bufferOp dir s = { s with fault := (bufferOp dir s).fault, result := (bufferOp dir s).result,
                              mem := (bufferOp dir s).mem } := by
  obtain ⟨_, _, _, h⟩ | ⟨_, _, h⟩ | ⟨_, _, _, _, h⟩ := bufferOp_cases dir s
  · rw [h]; rfl
  · rw [h]; rfl
  · rw [h]; rfl

/-- BufferOp leaves every byte outside the output range (R88). -/
theorem bufferOp_read_outside (dir : Direction) {s : State} (hm : Memory.wf s.mem) {o : BufferArgs}
    (ho : s.bufferOperands = some o) {a : Nat} (ha : a < o.dst.toNat ∨ o.dst.toNat + o.len.toNat ≤ a) :
    Memory.read (bufferOp dir s).mem a = Memory.read s.mem a := by
  obtain h | ⟨o', ho', _, h⟩ := bufferOp_mem dir s
  · rw [h]
  · obtain rfl : o = o' := Option.some.inj (ho.symm.trans ho')
    rw [h, State.bufferResult_outside hm ha]

/-- BufferOp leaves every byte of the input range: where it writes, the ranges lie apart (R43, R88). -/
theorem bufferOp_read_input (dir : Direction) {s : State} (hm : Memory.wf s.mem) {o : BufferArgs}
    (ho : s.bufferOperands = some o) {a : Nat} (h1 : o.src.toNat ≤ a) (h2 : a < o.src.toNat + o.len.toNat) :
    Memory.read (bufferOp dir s).mem a = Memory.read s.mem a := by
  obtain h | ⟨o', ho', hp, _⟩ := bufferOp_mem dir s
  · rw [h]
  · obtain rfl : o = o' := Option.some.inj (ho.symm.trans ho')
    have hapart := hp.apart
    exact bufferOp_read_outside dir hm ho (by omega)

/-! ## Host operations -/

theorem readReg_arg (r : Reg) (s : State) : (readReg r s).arg = s.arg := by rw [readReg_frame]

theorem readReg_cfgValid (r : Reg) (s : State) : (readReg r s).cfgValid = s.cfgValid := by
  rw [readReg_frame]

/-- A host read of a written ARG register returns its value (R22). -/
theorem readReg_arg_of_written {s : State} {n : Fin 4} {v : Word} (h : s.arg[n] = some v) :
    readReg (.arg n) s = s.reply (.word v) := by
  simp only [readReg, h]

/-- A host read of an unwritten ARG register returns a free value (R22). -/
theorem readReg_arg_of_unwritten {s : State} {n : Fin 4} (h : s.arg[n] = none) :
    readReg (.arg n) s = s.replyDraw := by
  simp only [readReg, h]

/-- No register write stops the model (R18). -/
theorem writeReg_next (r : Reg) (v : Word) (s : State) : ∃ t, writeReg r v s = .next t := by
  cases r with
  | cmd => exact commandStep_next v s
  | arg | status | reserved => exact ⟨_, rfl⟩

/-- What one host operation does to the ARG registers: nothing, unless it is reset or the write of one of them (R21). -/
theorem hostOp_arg {op : HostOp} {s t : State} (h : hostOp op s = .next t) :
    t.arg = s.arg ∨ (op = .reset ∧ t.arg = #v[none, none, none, none]) ∨
    ∃ n v, op = busWr s.config (.arg n) v ∧ t.arg = s.arg.set n.val (some v) n.isLt := by
  obtain ⟨n, v, hop, rfl⟩ | ⟨w, _, hw⟩ | ⟨_, _, rfl⟩ | ⟨_, _, _, rfl⟩ | ⟨r, _, rfl⟩ | ⟨_, _, _, _, rfl⟩ |
    ⟨_, _, _, rfl⟩ | ⟨hop, rfl⟩ := hostOp_cases h
  · exact .inr (.inr ⟨n, v, hop, rfl⟩)
  · exact .inl (commandStep_arg hw)
  · exact .inl rfl
  · exact .inl rfl
  · exact .inl (readReg_arg r s)
  · exact .inl rfl
  · exact .inl rfl
  · exact .inr (.inl ⟨hop, rfl⟩)

/-- Of the host operations reset alone clears CFG_VALID (R29). -/
theorem hostOp_cfgValid {op : HostOp} {s t : State} (h : hostOp op s = .next t) (hv : s.cfgValid = true) :
    t.cfgValid = true ∨ op = .reset := by
  obtain ⟨_, _, _, rfl⟩ | ⟨w, _, hw⟩ | ⟨_, _, rfl⟩ | ⟨_, _, _, rfl⟩ | ⟨r, _, rfl⟩ | ⟨_, _, _, _, rfl⟩ |
    ⟨_, _, _, rfl⟩ | ⟨hop, _⟩ := hostOp_cases h
  · exact .inl hv
  · exact .inl (commandStep_cfgValid hw hv)
  · exact .inl hv
  · exact .inl hv
  · exact .inl ((readReg_cfgValid r s).trans hv)
  · exact .inl hv
  · exact .inl hv
  · exact .inr hop

theorem step_cfgValid {s t : State} (h : step s = .next t) (hv : s.cfgValid = true) :
    t.cfgValid = true ∨ s.host.ops.head? = some .reset := by
  obtain ⟨_, rfl⟩ | ⟨op, rest, hops, hop⟩ := step_cases h
  · exact .inl hv
  · obtain ht | rfl := hostOp_cfgValid hop hv
    · exact .inl ht
    · exact .inr (by rw [hops]; rfl)

theorem getElem_unwritten (n : Fin 4) : (#v[none, none, none, none] : Vector (Option Word) 4)[n] = none := by
  fin_cases n <;> rfl

theorem setArg_arg_same (s : State) (n : Fin 4) (v : Word) : (s.setArg n v).arg[n] = some v := by
  simp

theorem setArg_arg_of_ne (s : State) {n m : Fin 4} (v : Word) (h : m ≠ n) : (s.setArg n v).arg[m] = s.arg[m] := by
  have hne : n.val ≠ m.val := fun e => h (Fin.ext e.symm)
  simp [Vector.getElem_set_ne, hne]

/-- A step that changes ARGn is a reset or the host's write of ARGn (R21). -/
theorem step_arg_changed {s t : State} {n : Fin 4} (h : step s = .next t) (hn : t.arg[n] ≠ s.arg[n]) :
    (s.host.ops.head? = some .reset ∧ t.arg[n] = none) ∨
    ∃ v, s.host.ops.head? = some (busWr s.config (.arg n) v) ∧ t.arg[n] = some v := by
  obtain ⟨_, rfl⟩ | ⟨op, rest, hops, hop⟩ := step_cases h
  · exact absurd rfl hn
  · obtain ha | ⟨rfl, ha⟩ | ⟨m, v, rfl, ha⟩ := hostOp_arg hop
    · exact absurd (by rw [ha]; rfl) hn
    · exact .inl ⟨by rw [hops]; rfl, by rw [ha]; exact getElem_unwritten n⟩
    · by_cases hnm : n = m
      · subst hnm
        exact .inr ⟨v, by rw [hops]; rfl, by rw [ha]; exact setArg_arg_same s n v⟩
      · exact absurd (by rw [ha]; exact setArg_arg_of_ne s v hnm) hn

/-- R19's refusals, by name. -/
theorem registerAt_error_name {c : Config} {addr bytes : Nat} (h : ¬ accessWf c addr bytes) :
    registerAt c addr bytes = .error .accessNotWord ∨ registerAt c addr bytes = .error .accessOutsideBlock ∨
    registerAt c addr bytes = .error .accessMisaligned := by
  unfold registerAt
  split
  · exact .inl rfl
  · next h1 =>
    split
    · exact .inr (.inl rfl)
    · next h2 =>
      split
      · exact .inr (.inr rfl)
      · next h3 => exact absurd ⟨not_not.mp h1, not_not.mp h2, not_not.mp h3⟩ h

theorem registerAt_of_wf {c : Config} {addr bytes : Nat} (h : accessWf c addr bytes) :
    registerAt c addr bytes = .ok (regAtOffset (addr - c.regBase)) := by
  obtain ⟨hw, hb, ha⟩ := h
  rw [registerAt, if_neg (not_not.mpr hw), if_neg (not_not.mpr hb), if_neg (not_not.mpr ha)]

/-- The operation is an access over the register bus, a read or a write, of this place and width. -/
def HostOp.IsAccess (op : HostOp) (addr bytes : Nat) : Prop :=
  op = .busRead addr bytes ∨ ∃ v, op = .busWrite addr bytes v

theorem hostOp_access_refused {op : HostOp} {addr bytes : Nat} {s : State} {e : Refusal} (hop : op.IsAccess addr bytes)
    (h : registerAt s.config addr bytes = .error e) : hostOp op s = .refused e := by
  obtain rfl | ⟨v, rfl⟩ := hop
  · simp [hostOp, h]
  · simp [hostOp, h]

theorem hostOp_access_next {op : HostOp} {addr bytes : Nat} {s : State} {r : Reg} (hop : op.IsAccess addr bytes)
    (h : registerAt s.config addr bytes = .ok r) : ∃ t, hostOp op s = .next t := by
  obtain rfl | ⟨v, rfl⟩ := hop
  · exact ⟨readReg r s, by simp [hostOp, h]⟩
  · obtain ⟨t, ht⟩ := writeReg_next r v s
    exact ⟨t, by simp [hostOp, h, ht]⟩

/-! ## STATUS -/

/-- The word of STATUS as a number: the sum of R28. -/
theorem statusWord_toNat (s : State) :
    s.statusWord.toNat = s.result.code.toNat + 2 ^ 8 * s.cfgValid.toNat + 2 ^ 9 * s.fault.toNat := by
  unfold State.statusWord
  cases s.fault <;> cases s.cfgValid <;> cases s.result <;> rfl

/-- A field of STATUS as a number. -/
theorem statusWord_field_toNat (s : State) (start len : Nat) :
    (s.statusWord.extractLsb' start len).toNat =
      (s.result.code.toNat + 2 ^ 8 * s.cfgValid.toNat + 2 ^ 9 * s.fault.toNat) / 2 ^ start % 2 ^ len := by
  rw [BitVec.extractLsb'_toNat, Nat.shiftRight_eq_div_pow, statusWord_toNat]

theorem statusWord_result (s : State) : s.statusWord.extractLsb' 0 4 = s.result.code := by
  apply BitVec.eq_of_toNat_eq
  rw [statusWord_field_toNat]
  have hcode := s.result.code.isLt
  omega

theorem statusWord_reserved_low (s : State) : s.statusWord.extractLsb' 4 4 = 0#4 := by
  apply BitVec.eq_of_toNat_eq
  rw [statusWord_field_toNat, BitVec.toNat_zero]
  have hcode := s.result.code.isLt
  omega

theorem statusWord_reserved_high (s : State) : s.statusWord.extractLsb' 10 22 = 0#22 := by
  apply BitVec.eq_of_toNat_eq
  rw [statusWord_field_toNat, BitVec.toNat_zero]
  have hcode := s.result.code.isLt
  have hvalid := s.cfgValid.toNat_lt
  have hfault := s.fault.toNat_lt
  omega

theorem statusWord_cfgValid (s : State) : s.statusWord.getLsbD 8 = s.cfgValid := by
  have hcode := s.result.code.isLt
  rw [← BitVec.testBit_toNat, statusWord_toNat, Nat.testBit_eq_decide_div_mod_eq]
  cases s.cfgValid with
  | false => simp only [Bool.toNat_false, decide_eq_false_iff_not]; omega
  | true => simp only [Bool.toNat_true, decide_eq_true_eq]; omega

theorem statusWord_fault (s : State) : s.statusWord.getLsbD 9 = s.fault := by
  have hcode := s.result.code.isLt
  have hvalid := s.cfgValid.toNat_lt
  rw [← BitVec.testBit_toNat, statusWord_toNat, Nat.testBit_eq_decide_div_mod_eq]
  cases s.fault with
  | false => simp only [Bool.toNat_false, decide_eq_false_iff_not]; omega
  | true => simp only [Bool.toNat_true, decide_eq_true_eq]; omega

/-! ## The statements -/

/-- Settles O11: `CommandEffect` shows that no command clears CFG_VALID, `step_cfgValid` that only reset does. -/
theorem cfgValidGatesCommands : Obligations.CfgValidGatesCommands := by
  refine ⟨rfl, ?_, fun _ _ _ h => commandStep_cfgValid h, ?_, ?_⟩
  · intro s k0 k1 k2 k3 hf ha
    exact ⟨_, rfl, by rw [State.ifTaken_of_clear hf, usingKey_of_written ha]; rfl⟩
  · intro s t h hv ht
    exact (step_cfgValid h hv).resolve_left (by simp [ht])
  · rintro i s (rfl | rfl | rfl) hf hc
    · rw [exec_withRounds, State.ifTaken_of_clear hf, withRounds_of_notConfigured hc]; rfl
    · rw [exec_encipher, State.ifTaken_of_clear hf, bufferOp_of_notConfigured .enc hc]; rfl
    · rw [exec_decipher, State.ifTaken_of_clear hf, bufferOp_of_notConfigured .dec hc]; rfl

/-- Settles O29: a faulted engine does nothing; otherwise the frame of BufferOp, register by register and byte by byte. -/
theorem bufferCommandsFrame : Obligations.BufferCommandsFrame := by
  intro dir s t hm h
  rw [exec_directionCommand] at h
  cases h
  cases hf : s.fault with
  | true => simp [hf]
  | false =>
    rw [State.ifTaken_of_clear hf]
    have hframe := bufferOp_frame dir s
    refine ⟨(congrArg State.key hframe :), (congrArg State.rounds hframe :), (congrArg State.cfgValid hframe :),
      (congrArg State.arg hframe :), (congrArg State.config hframe :), (congrArg State.host hframe :), ?_, ?_⟩
    · intro hn
      obtain hs | ⟨o, ho, _⟩ := bufferOp_mem dir s
      · exact hs
      · rw [State.bufferOperands_eq_none.mpr hn] at ho
        cases ho
    · intro src dst len cap ha
      have ho : s.bufferOperands = some ⟨src, dst, len, cap⟩ := State.bufferOperands_eq_some.mpr ha
      exact ⟨fun a h1 h2 => bufferOp_read_input dir hm ho h1 h2, fun a hout => bufferOp_read_outside dir hm ho hout⟩

/-- Settles O37: the fields of the word of STATUS, and the bus at the offset of STATUS. -/
theorem statusRegister : Obligations.StatusRegister := by
  refine ⟨rfl, rfl, rfl, rfl, rfl, rfl, rfl, rfl, fun s => ?_⟩
  exact ⟨statusWord_result s, statusWord_reserved_low s, rfl, statusWord_cfgValid s, statusWord_fault s,
    statusWord_reserved_high s, fun _ h => step_busRd (r := .status) h, fun _ _ h => step_busWr (r := .status) h⟩

/-- Settles O41: the write of ARGn by the bus at its offset, and `step_arg_changed` for every other step. -/
theorem argRegisterWrites : Obligations.ArgRegisterWrites := by
  refine ⟨getElem_unwritten, ?_, fun s t n => step_arg_changed⟩
  intro s rest n v h
  exact ⟨_, step_busWr (r := .arg n) h, rfl, setArg_arg_same (s.setOps rest) n v,
    fun m hm => setArg_arg_of_ne (s.setOps rest) v hm⟩

/-- Settles O42: the step of an access is refused where `registerAt` is an error, and has a next state where it is a
register. -/
theorem onlyWordAccessesInsideBlock : Obligations.OnlyWordAccessesInsideBlock := by
  intro s op rest addr bytes hops hop
  rw [step_op hops]
  constructor
  · intro hbad
    have hwf : ¬ accessWf s.config addr bytes := by
      rintro ⟨hw, ⟨hlo, hhi⟩, hal⟩
      simp only [accessIsWord, accessIsAligned] at hw hal
      omega
    exact (registerAt_error_name hwf).imp (hostOp_access_refused hop)
      (Or.imp (hostOp_access_refused hop) (hostOp_access_refused hop))
  · intro hw hlo hhi hal
    exact hostOp_access_next hop (registerAt_of_wf (c := s.config) ⟨hw, ⟨hlo, hhi⟩, hal⟩)

/-- Settles O38: the bus at the offset of CMD. -/
theorem cmdRegister : Obligations.CmdRegister := fun _ _ =>
  ⟨fun _ h => step_busWr (r := .cmd) h, fun h => step_busRd (r := .cmd) h⟩

/-- Settles O40: the bus at the offset of ARGn, and each command at its check of the operand registers. -/
theorem argRegisterReads : Obligations.ArgRegisterReads := by
  refine ⟨?_, ?_, ?_, ?_⟩
  · intro s rest n h
    have hstep : step s = .next (readReg (.arg n) (s.setOps rest)) := step_busRd (r := .arg n) h
    constructor
    · intro v hv
      rw [hstep, readReg_arg_of_written (s := s.setOps rest) hv]
    · intro hn
      rw [readReg_arg_of_unwritten (s := s.setOps rest) hn] at hstep
      exact ⟨_, hstep, rfl, rfl, rfl⟩
  · intro s hf hn
    rw [exec_usingKey, State.ifTaken_of_clear hf, usingKey_of_unwritten hn]; rfl
  · intro s hf hc hn
    rw [exec_withRounds, State.ifTaken_of_clear hf, withRounds_of_unwritten hc hn]; rfl
  · intro dir s hf hc hn
    rw [exec_directionCommand, State.ifTaken_of_clear hf, bufferOp_of_unwritten dir hc hn]; rfl

end Sys2Proof.Machine

/-! SUPPORT. The memory family of statements (20_memory.md): what ENCIPHER and DECIPHER answer at the range check and at the
overlap check of R81; then the statements themselves. -/

namespace Sys2Proof.Machine

/-- ENCIPHER and DECIPHER on an engine that is not faulted are BufferOp (R90, R91). -/
theorem exec_directionCommand_of_clear (dir : Direction) {s : State} (hf : s.fault = false) :
    exec dir.command s = .next (bufferOp dir s) := by
  rw [exec_directionCommand, State.ifTaken_of_clear hf]

/-- The checks of R81 up to the capacity check pass, with the operands `o`. -/
structure State.ReachesRangeCheck (s : State) (o : BufferArgs) : Prop where
  configured : s.cfgValid = true
  operands : s.bufferOperands = some o
  len : o.len.toNat % 8 = 0
  cap : o.len.toNat ≤ o.cap.toNat

/-- What is left of BufferOp once the checks before the range check have passed (R81, R97). -/
theorem State.ReachesRangeCheck.bufferOp_eq {s : State} {o : BufferArgs} (h : s.ReachesRangeCheck o) (dir : Direction) :
    bufferOp dir s =
      if ¬ admitted s.config.memSize o.src.toNat o.len.toNat ∨ ¬ admitted s.config.memSize o.dst.toNat o.len.toNat then
        s.raiseFault .bufferRange
      else if overlap o.src.toNat o.dst.toNat o.len.toNat then s.raiseFault .bufferOverlap
      else (s.setMem (s.bufferResult dir o)).finish .ok := by
  simp only [bufferOp, h.configured, Bool.true_eq_false, if_false, h.operands, if_neg (not_not.mpr h.len),
    if_neg (Nat.not_lt.mpr h.cap), State.bufferResult]

theorem State.ReachesRangeCheck.bufferOp_of_notAdmitted {s : State} {o : BufferArgs} (h : s.ReachesRangeCheck o)
    (dir : Direction) (hout : ¬ admitted s.config.memSize o.src.toNat o.len.toNat ∨
      ¬ admitted s.config.memSize o.dst.toNat o.len.toNat) :
    bufferOp dir s = s.raiseFault .bufferRange := by
  rw [h.bufferOp_eq, if_pos hout]

theorem State.ReachesRangeCheck.bufferOp_of_overlap {s : State} {o : BufferArgs} (h : s.ReachesRangeCheck o)
    (dir : Direction) (hsrc : admitted s.config.memSize o.src.toNat o.len.toNat)
    (hdst : admitted s.config.memSize o.dst.toNat o.len.toNat) (ho : overlap o.src.toNat o.dst.toNat o.len.toNat) :
    bufferOp dir s = s.raiseFault .bufferOverlap := by
  rw [h.bufferOp_eq, if_neg (not_or.mpr ⟨not_not.mpr hsrc, not_not.mpr hdst⟩), if_pos ho]

/-- Admitted ranges that lie apart end the command with OK (R43, R81). -/
theorem State.ReachesRangeCheck.bufferOp_of_apart {s : State} {o : BufferArgs} (h : s.ReachesRangeCheck o)
    (dir : Direction) (hsrc : admitted s.config.memSize o.src.toNat o.len.toNat)
    (hdst : admitted s.config.memSize o.dst.toNat o.len.toNat) (ho : ¬ overlap o.src.toNat o.dst.toNat o.len.toNat) :
    bufferOp dir s = (s.setMem (s.bufferResult dir o)).finish .ok :=
  bufferOp_of_passes h.configured h.operands ⟨h.len, h.cap, hsrc, hdst, ho⟩

/-! ## The statements -/

/-- Settles O26: a range that is not admitted faults at the range check; with both admitted the command ends at the overlap
check or with OK. -/
theorem rangeCheck : Obligations.RangeCheck := by
  intro dir s src dst len cap hf hc ha hlen hcap
  have h : s.ReachesRangeCheck ⟨src, dst, len, cap⟩ := ⟨hc, State.bufferOperands_eq_some.mpr ha, hlen, hcap⟩
  rw [exec_directionCommand_of_clear dir hf]
  constructor
  · intro hout
    rw [h.bufferOp_of_notAdmitted dir hout]; rfl
  · rintro ⟨hsrc, hdst⟩
    refine ⟨_, rfl, ?_⟩
    by_cases ho : overlap src.toNat dst.toNat len.toNat
    · rw [h.bufferOp_of_overlap dir hsrc hdst ho]; simp
    · rw [h.bufferOp_of_apart dir hsrc hdst ho]; simp

/-- Settles O27: admitted ranges end the command at the overlap check when they overlap, and with OK when they lie apart. -/
theorem overlapCheck : Obligations.OverlapCheck := by
  intro dir s src dst len cap hf hc ha hlen hcap hsrc hdst
  have h : s.ReachesRangeCheck ⟨src, dst, len, cap⟩ := ⟨hc, State.bufferOperands_eq_some.mpr ha, hlen, hcap⟩
  rw [exec_directionCommand_of_clear dir hf]
  constructor
  · intro ho
    rw [h.bufferOp_of_overlap dir hsrc hdst ho]; rfl
  · intro ho
    exact ⟨_, rfl, by rw [h.bufferOp_of_apart dir hsrc hdst ho]; rfl⟩

end Sys2Proof.Machine

/-! SUPPORT. The encoding family of statements (30_encoding.md): a word's two fields and the decoder over them, and the run of
a list of ARG writes that ends in a command; then the statements themselves. -/

namespace Sys2Proof.Machine

/-! ## The command word -/

/-- A word is its two fields, side by side (R53). -/
theorem word_toNat_fields (w : Word) : w.toNat = (opField w).toNat + 2 ^ 4 * (mbzField w).toNat := by
  simp only [opField, mbzField, BitVec.extractLsb'_toNat, Nat.shiftRight_eq_div_pow]
  omega

/-- The condition of R57 on the fields of a word. -/
def HasIllegalField (w : Word) : Prop := mbzField w ≠ 0#28 ∨ (opField w).toNat = 0 ∨ 5 ≤ (opField w).toNat

theorem decode_of_illegalField {w : Word} (h : HasIllegalField w) : ∃ e, decode w = .error e := by
  unfold decode
  split
  · exact ⟨_, rfl⟩
  · next hmbz =>
    have hop := h.resolve_left hmbz
    split
    case h_5 => exact ⟨_, rfl⟩
    all_goals omega

/-- A word with no illegal field is one of the four words of R54, all 32 bits of it. -/
theorem eq_encode_of_legalFields {w : Word} (h : ¬ HasIllegalField w) : ∃ i, w = encode i := by
  obtain ⟨hmbz, hop⟩ := not_or.mp h
  have hw := word_toNat_fields w
  rw [not_not.mp hmbz, BitVec.toNat_zero] at hw
  obtain h1 | h2 | h3 | h4 : w.toNat = 1 ∨ w.toNat = 2 ∨ w.toNat = 3 ∨ w.toNat = 4 := by omega
  · exact ⟨.usingKey, BitVec.eq_of_toNat_eq h1⟩
  · exact ⟨.withRounds, BitVec.eq_of_toNat_eq h2⟩
  · exact ⟨.encipher, BitVec.eq_of_toNat_eq h3⟩
  · exact ⟨.decipher, BitVec.eq_of_toNat_eq h4⟩

@[simp] theorem decode_encode (i : Instr) : decode (encode i) = .ok i := by
  cases i with
  | usingKey | withRounds | encipher | decipher => rfl

/-- The decoder answers a command on that command's word and on no other (R54, R58). -/
theorem decode_eq_ok_iff {w : Word} {i : Instr} : decode w = .ok i ↔ w = encode i := by
  constructor
  · intro h
    by_cases hw : HasIllegalField w
    · obtain ⟨e, he⟩ := decode_of_illegalField hw
      cases h.symm.trans he
    · obtain ⟨j, rfl⟩ := eq_encode_of_legalFields hw
      rw [Except.ok.inj ((decode_encode j).symm.trans h)]
  · rintro rfl
    exact decode_encode i

theorem commandStep_encode (i : Instr) (s : State) : commandStep (encode i) s = exec i s := by
  simp only [commandStep, decode_encode]

/-- An illegal word on an engine that is not faulted writes STATUS.RESULT and nothing else (R57). -/
theorem commandStep_of_illegal {w : Word} {e : IllegalWord} {s : State} (hw : decode w = .error e)
    (hf : s.fault = false) : commandStep w s = .next (s.finish .illegalCommand) := by
  simp only [commandStep, hw, State.ifTaken_of_clear hf]

/-! ## Runs of ARG writes that end in a command -/

/-- The host's writes of ARG registers, in order (R60). -/
def argWrites (c : Config) (ws : List (Fin 4 × Word)) : List HostOp := ws.map fun w => busWr c (.arg w.1) w.2

/-- The ARG registers after those writes (R21). -/
def State.setArgs (s : State) (ws : List (Fin 4 × Word)) : State := ws.foldl (fun s w => s.setArg w.1 w.2) s

/-- ARG writes and then a command's word, run one a step: the command on the ARG registers the writes left (R60, R61). -/
theorem run_argWrites_command {i : Instr} {rest : List HostOp} (ws : List (Fin 4 × Word)) (s : State)
    (h : s.host.ops = argWrites s.config ws ++ busWr s.config .cmd (encode i) :: rest) :
    (Host.Core.run Sys2Proof.core (ws.length + 1) s : Host.Outcome State Fault Refusal) =
      exec i ((s.setOps rest).setArgs ws) := by
  induction ws generalizing s with
  | nil =>
    have hstep : step s = commandStep (encode i) (s.setOps rest) := step_busWr (r := .cmd) h
    exact (run_one s).trans (hstep.trans (commandStep_encode i _))
  | cons w ws ih =>
    have hstep := step_busWr (r := .arg w.1) (v := w.2) h
    exact (run_succ_of_next hstep).trans (ih _ rfl)

/-- The ARG writes of a pseudo-instruction (R61). -/
def Pseudo.argList : Pseudo → List (Fin 4 × Word)
  | .cmd _ => []
  | .usingKey k0 k1 k2 k3 => [(0, k0), (1, k1), (2, k2), (3, k3)]
  | .withRounds n => [(0, n)]
  | .encipher src dst len cap => [(0, src), (1, dst), (2, len), (3, cap)]
  | .decipher src dst len cap => [(0, src), (1, dst), (2, len), (3, cap)]

/-- Every expansion is the ARG writes and then the command's word (R61). -/
theorem Pseudo.expand_eq (c : Config) (p : Pseudo) :
    p.expand c = argWrites c p.argList ++ [busWr c .cmd (encode p.instr)] := by
  cases p with
  | cmd | usingKey | withRounds | encipher | decipher => rfl

theorem Pseudo.expand_length (c : Config) (p : Pseudo) : (p.expand c).length = p.argList.length + 1 := by
  rw [Pseudo.expand_eq, List.length_append, argWrites, List.length_map, List.length_singleton]

theorem setArgs_all (s : State) (a0 a1 a2 a3 : Word) :
    s.setArgs [(0, a0), (1, a1), (2, a2), (3, a3)] = { s with arg := #v[some a0, some a1, some a2, some a3] } := by
  have harg : (s.setArgs [(0, a0), (1, a1), (2, a2), (3, a3)]).arg = #v[some a0, some a1, some a2, some a3] :=
    arg_eq_iff.mpr (by simp [State.setArgs])
  rw [← harg]
  rfl

theorem setArgs_first (s : State) (n : Word) :
    s.setArgs [(0, n)] = { s with arg := #v[some n, s.arg[1], s.arg[2], s.arg[3]] } := by
  have harg : (s.setArgs [(0, n)]).arg = #v[some n, s.arg[1], s.arg[2], s.arg[3]] :=
    arg_eq_iff.mpr (by simp [State.setArgs])
  rw [← harg]
  rfl

/-- The writes of a pseudo-instruction leave the ARG registers that its command finds (R61). -/
theorem Pseudo.setArgs_argList (p : Pseudo) (s : State) : s.setArgs p.argList = { s with arg := p.args s.arg } := by
  cases p with
  | cmd i => rfl
  | usingKey k0 k1 k2 k3 => exact setArgs_all s k0 k1 k2 k3
  | withRounds n => exact setArgs_first s n
  | encipher src dst len cap => exact setArgs_all s src dst len cap
  | decipher src dst len cap => exact setArgs_all s src dst len cap

/-! ## The statements -/

/-- Settles O2: `decode_eq_ok_iff`, the table of R54, and `eq_encode_of_legalFields` for the words outside it. -/
theorem decodeEncodeAgree : Obligations.DecodeEncodeAgree := by
  refine ⟨fun _ _ => decode_eq_ok_iff, ?_, ?_⟩
  · intro i
    cases i with
    | usingKey | withRounds | encipher | decipher => rfl
  · intro w hw
    refine decode_of_illegalField (Classical.byContradiction fun h => ?_)
    obtain ⟨i, hi⟩ := eq_encode_of_legalFields h
    exact hw i hi

/-- Settles O3: the CMD write of a word that the decoder rejects, and the four words that have no illegal field. -/
theorem illegalWordSetsResultOnly : Obligations.IllegalWordSetsResultOnly := by
  intro w
  constructor
  · intro hw s rest hf hops
    obtain ⟨e, he⟩ := decode_of_illegalField hw
    exact (step_busWr (r := .cmd) hops).trans (commandStep_of_illegal he hf)
  · intro hw
    obtain ⟨i, rfl⟩ := eq_encode_of_legalFields hw
    exact ⟨i, decode_encode i⟩

/-- Settles O7: the rows of R61 by the expansion's definition, and `run_argWrites_command` for the run. -/
theorem pseudoInstructionExpands : Obligations.PseudoInstructionExpands := by
  refine ⟨fun _ _ => rfl, fun _ _ _ _ _ => rfl, fun _ _ => rfl, fun _ _ _ _ _ => rfl, fun _ _ _ _ _ => rfl, ?_⟩
  intro p s rest hops
  rw [p.expand_eq, List.append_assoc] at hops
  rw [p.expand_length, run_argWrites_command p.argList s hops, p.setArgs_argList]
  rfl

end Sys2Proof.Machine

/-! SUPPORT. The key schedule's family of statements (40_key_schedule.md): the two selectors as numbers, one round in either
direction at a given sum, and the running sum of both directions; then the statements themselves. -/

namespace Sys2Proof.Machine

/-! ## WITH_ROUNDS -/

theorem withRounds_of_written {s : State} {n : Word} (hc : s.cfgValid = true) (hn : s.arg[0] = some n) :
    withRounds s = (s.setRounds n).finish .ok := by
  simp [withRounds, hc, State.roundsOperand, hn]

/-! ## The selectors -/

/-- The number of a word is that word again. -/
theorem ofNat_toNat_word (w : Word) : BitVec.ofNat 32 w.toNat = w := by
  rw [BitVec.ofNat_toNat, BitVec.setWidth_eq]

/-- The mask 3 keeps the two lowest bits (R67). -/
theorem and_three_toNat (w : Word) : (w &&& 3#32).toNat = w.toNat % 4 :=
  (BitVec.toNat_and w 3#32).trans (Nat.and_two_pow_sub_one_eq_mod w.toNat 2)

/-- A masked word is below 4, so as an index of KEY it keeps its value (R67). -/
theorem fin_ofNat_and_three_val (w : Word) : (Fin.ofNat 4 (w &&& 3#32).toNat).val = (w &&& 3#32).toNat := by
  rw [Fin.val_ofNat, and_three_toNat, Nat.mod_mod]

theorem selA_val (sum : Word) : (selA sum).val = (sum &&& 3#32).toNat := fin_ofNat_and_three_val sum

theorem selB_val (sum : Word) : (selB sum).val = ((sum >>> 11) &&& 3#32).toNat := fin_ofNat_and_three_val (sum >>> 11)

/-! ## One round -/

section Round

variable (delta : Word) (key : Key) (x : RoundState)

@[simp] theorem encipherRound_sum : (encipherRound delta key x).sum = x.sum + delta := rfl

@[simp] theorem decipherRound_sum : (decipherRound delta key x).sum = x.sum - delta := rfl

/-- Which sum each half of ER sees: the one before the round and the one after it (R65, R71). -/
theorem encipherRound_halves :
    (encipherRound delta key x).v0 = x.v0 + (mix x.v1 ^^^ keyA key x.sum) ∧
    (encipherRound delta key x).v1 =
      x.v1 + (mix (encipherRound delta key x).v0 ^^^ keyB key (encipherRound delta key x).sum) := ⟨rfl, rfl⟩

/-- Which sum each half of DR sees: the one before the round and the one after it (R66, R72). -/
theorem decipherRound_halves :
    (decipherRound delta key x).v1 = x.v1 - (mix x.v0 ^^^ keyB key x.sum) ∧
    (decipherRound delta key x).v0 =
      x.v0 - (mix (decipherRound delta key x).v1 ^^^ keyA key (decipherRound delta key x).sum) := ⟨rfl, rfl⟩

end Round

/-! ## The running sum -/

/-- A sum gone through one round more is one DELTA higher (R65). -/
theorem ofNat_succ_mul (j : Nat) (delta : Word) :
    BitVec.ofNat 32 (j + 1) * delta = BitVec.ofNat 32 j * delta + delta := by
  rw [BitVec.ofNat_add, BitVec.add_mul, BitVec.one_mul]

/-- Every encipher round adds DELTA to the sum (R65). -/
theorem iterate_encipherRound_sum (delta : Word) (key : Key) (j : Nat) (x : RoundState) :
    (iterate (encipherRound delta key) j x).sum = x.sum + BitVec.ofNat 32 j * delta := by
  induction j with
  | zero => simp [iterate]
  | succ j ih => rw [iterate_succ_last, encipherRound_sum, ih, ofNat_succ_mul, BitVec.add_assoc]

/-- Every decipher round takes DELTA from the sum (R66). -/
theorem iterate_decipherRound_sum (delta : Word) (key : Key) (j : Nat) (x : RoundState) :
    (iterate (decipherRound delta key) j x).sum = x.sum - BitVec.ofNat 32 j * delta := by
  induction j with
  | zero => simp [iterate]
  | succ j ih => rw [iterate_succ_last, decipherRound_sum, ih, ofNat_succ_mul, sub_sub]

/-- `ROUNDS * DELTA` with `j` DELTAs taken off is `(ROUNDS - j) * DELTA`, on 32 bits (R66). -/
theorem decipherStartSum_sub (delta : Word) {rounds : Word} {j : Nat} (hj : j ≤ rounds.toNat) :
    decipherStartSum delta rounds - BitVec.ofNat 32 j * delta = BitVec.ofNat 32 (rounds.toNat - j) * delta := by
  have hrounds : rounds = BitVec.ofNat 32 (rounds.toNat - j) + BitVec.ofNat 32 j := by
    rw [← BitVec.ofNat_add, Nat.sub_add_cancel hj, ofNat_toNat_word]
  rw [decipherStartSum, sub_eq_iff_eq_add, ← BitVec.add_mul, ← hrounds]

/-- The sum of one round more is one DELTA above (R66). -/
theorem decipherStartSum_succ (delta rounds : Word) :
    decipherStartSum delta (rounds + 1#32) = decipherStartSum delta rounds + delta := by
  rw [decipherStartSum, decipherStartSum, BitVec.add_mul, BitVec.one_mul]

/-! ## The block transforms -/

/-- A ROUNDS that is not the largest counts one round more after `+ 1`. -/
theorem rounds_succ_toNat {rounds : Word} (h : rounds.toNat + 1 < 2 ^ 32) :
    (rounds + 1#32).toNat = rounds.toNat + 1 := BitVec.toNat_add_of_lt h

/-- What the encipher loop holds after ROUNDS rounds: the halves EncipherBlock gives, and the sum `ROUNDS * DELTA`
(R65, R75). -/
theorem iterate_encipherRound_eq (delta : Word) (key : Key) (rounds : Word) (b : Block) :
    iterate (encipherRound delta key) rounds.toNat { v0 := b.v0, v1 := b.v1, sum := 0#32 } =
      { v0 := (encipherBlock delta key rounds b).v0, v1 := (encipherBlock delta key rounds b).v1,
        sum := rounds * delta } := by
  have hsum := iterate_encipherRound_sum delta key rounds.toNat { v0 := b.v0, v1 := b.v1, sum := 0#32 }
  rw [BitVec.zero_add, ofNat_toNat_word] at hsum
  rw [← hsum]
  rfl

theorem encipherBlock_succ (delta : Word) (key : Key) {rounds : Word} (b : Block) (h : rounds.toNat + 1 < 2 ^ 32) :
    let c := encipherBlock delta key rounds b
    let y := encipherRound delta key { v0 := c.v0, v1 := c.v1, sum := rounds * delta }
    encipherBlock delta key (rounds + 1#32) b = { v0 := y.v0, v1 := y.v1 } := by
  intro c y
  rw [encipherBlock, rounds_succ_toNat h, iterate_succ_last, iterate_encipherRound_eq]

theorem decipherBlock_succ (delta : Word) (key : Key) {rounds : Word} (b : Block) (h : rounds.toNat + 1 < 2 ^ 32) :
    let y := decipherRound delta key { v0 := b.v0, v1 := b.v1, sum := (rounds + 1#32) * delta }
    decipherBlock delta key (rounds + 1#32) b = decipherBlock delta key rounds { v0 := y.v0, v1 := y.v1 } := by
  intro y
  have hy : y = { v0 := y.v0, v1 := y.v1, sum := decipherStartSum delta rounds } := by
    rw [← add_sub_cancel_right (decipherStartSum delta rounds) delta, ← decipherStartSum_succ]
    rfl
  rw [decipherBlock, rounds_succ_toNat h, iterate, decipherBlock, ← hy]
  rfl

/-! ## The statements -/

/-- Settles O8: USING_KEY, taken because FAULT is 0, with the four operand registers written and with one unwritten. -/
theorem usingKeyLoadsConfiguration : Obligations.UsingKeyLoadsConfiguration := by
  intro s hf
  rw [exec_usingKey, State.ifTaken_of_clear hf]
  constructor
  · intro k0 k1 k2 k3 ha
    rw [usingKey_of_written ha]; rfl
  · intro hn
    rw [usingKey_of_unwritten hn]; rfl

/-- Settles O9: WITH_ROUNDS, taken because FAULT is 0, at each of its three ends. -/
theorem withRoundsSetsRounds : Obligations.WithRoundsSetsRounds := by
  intro s hf
  rw [exec_withRounds, State.ifTaken_of_clear hf]
  refine ⟨?_, ?_, ?_⟩
  · intro hc
    rw [withRounds_of_notConfigured hc]; rfl
  · intro hc n hn
    rw [withRounds_of_written hc hn]; rfl
  · intro hc hn
    rw [withRounds_of_unwritten hc hn]; rfl

/-- Settles O12: a selector keeps the value of its masked word, and the mask 3 is a remainder by 4. -/
theorem keySelectorsAreFields : Obligations.KeySelectorsAreFields := by
  intro sum
  rw [selA_val, selB_val]
  refine ⟨ofNat_toNat_word _, ?_, ofNat_toNat_word _, ?_⟩
  · rw [and_three_toNat, BitVec.extractLsb'_toNat]; rfl
  · rw [and_three_toNat, BitVec.extractLsb'_toNat, BitVec.toNat_ushiftRight]

/-- Settles O15: `iterate_encipherRound_sum` gives the sum before and after round `j`, which its two halves see. -/
theorem encipherSumSchedule : Obligations.EncipherSumSchedule := by
  intro delta key b
  refine ⟨?_, rfl, fun _ h => encipherBlock_succ delta key b h⟩
  intro j start x y
  have hy : y = encipherRound delta key x := iterate_succ_last _ j start
  have hx : x.sum = BitVec.ofNat 32 j * delta :=
    (iterate_encipherRound_sum delta key j start).trans (BitVec.zero_add _)
  have hys : y.sum = BitVec.ofNat 32 (j + 1) * delta :=
    (iterate_encipherRound_sum delta key (j + 1) start).trans (BitVec.zero_add _)
  obtain ⟨hv0, hv1⟩ := encipherRound_halves delta key x
  rw [← hy, hx] at hv0
  rw [← hy, hys] at hv1
  exact ⟨hx, hv0, hv1, hys⟩

/-- Settles O16: `iterate_decipherRound_sum` and `decipherStartSum_sub` give the sum before and after round `j`, which its
two halves see. -/
theorem decipherSumSchedule : Obligations.DecipherSumSchedule := by
  intro delta key b
  refine ⟨?_, rfl, fun _ h => decipherBlock_succ delta key b h⟩
  intro rounds j hj start x y
  have hy : y = decipherRound delta key x := iterate_succ_last _ j start
  have hx : x.sum = BitVec.ofNat 32 (rounds.toNat - j) * delta :=
    (iterate_decipherRound_sum delta key j start).trans (decipherStartSum_sub delta hj.le)
  have hys : y.sum = BitVec.ofNat 32 (rounds.toNat - (j + 1)) * delta :=
    (iterate_decipherRound_sum delta key (j + 1) start).trans (decipherStartSum_sub delta hj)
  obtain ⟨hv1, hv0⟩ := decipherRound_halves delta key x
  rw [← hy, hx] at hv1
  rw [← hy, hys] at hv0
  exact ⟨BitVec.toNat_mul rounds delta, hx, hv1, hv0, hys⟩

end Sys2Proof.Machine

/-! SUPPORT. The Feistel round's family of statements (41_feistel_round.md): the key material of a half-round as the source
writes it, an access to the key array at the masked sum; then the statement itself. -/

namespace Sys2Proof.Machine

/-! ## The key material -/

/-- An index below 4 reads KEY and its list of words alike, so the list's default is never taken. -/
theorem key_toList_getD_val (key : Key) (i : Fin 4) : key.toList.getD i.val 0#32 = key[i] := by
  have hi : i.val < key.toList.length := by rw [Vector.length_toList]; exact i.isLt
  rw [List.getD_eq_getElem _ _ hi, Vector.getElem_toList]
  rfl

/-- `KA(sum)` as the line of the v0 half writes it: `sum + key[sum & 3]` (R71, R72). -/
theorem keyA_eq_getD (key : Key) (sum : Word) :
    keyA key sum = sum + key.toList.getD (sum &&& 3#32).toNat 0#32 := by
  rw [keyA, ← selA_val, key_toList_getD_val]

/-- `KB(sum)` as the line of the v1 half writes it: `sum + key[(sum >> 11) & 3]` (R71, R72). -/
theorem keyB_eq_getD (key : Key) (sum : Word) :
    keyB key sum = sum + key.toList.getD ((sum >>> 11) &&& 3#32).toNat 0#32 := by
  rw [keyB, ← selB_val, key_toList_getD_val]

/-! ## The statement -/

/-- Settles O13: each direction's three lines are the round's definition once `keyA_eq_getD` and `keyB_eq_getD` write the
key material as an access to the key array. -/
theorem roundsFollowSourceLines : Obligations.RoundsFollowSourceLines := by
  intro delta key v0 v1 sum
  constructor
  · simp only [encipherRound, mix, keyA_eq_getD, keyB_eq_getD]
  · simp only [decipherRound, mix, keyA_eq_getD, keyB_eq_getD]

end Sys2Proof.Machine

/-! SUPPORT. The block engine's family of statements (42_block_engine.md): each block transform as a sequence of ROUNDS rounds,
and a command that passes every check as one transform per block; then the statements themselves. -/

namespace Sys2Proof.Machine

/-! ## The block transforms -/

/-- EncipherBlock gives the halves at the end of any sequence of ROUNDS encipher rounds from sum 0 (R75). -/
theorem encipherBlock_of_sequence {delta : Word} {key : Key} {rounds : Word} {b : Block} {x : Nat → RoundState}
    (hstart : x 0 = { v0 := b.v0, v1 := b.v1, sum := 0#32 })
    (hstep : ∀ j < rounds.toNat, x (j + 1) = encipherRound delta key (x j)) :
    encipherBlock delta key rounds b = { v0 := (x rounds.toNat).v0, v1 := (x rounds.toNat).v1 } := by
  rw [encipherBlock, ← hstart, iterate_of_sequence rounds.toNat hstep]

/-- DecipherBlock gives the halves at the end of any sequence of ROUNDS decipher rounds from its start sum (R76). -/
theorem decipherBlock_of_sequence {delta : Word} {key : Key} {rounds : Word} {b : Block} {x : Nat → RoundState}
    (hstart : x 0 = { v0 := b.v0, v1 := b.v1, sum := decipherStartSum delta rounds })
    (hstep : ∀ j < rounds.toNat, x (j + 1) = decipherRound delta key (x j)) :
    decipherBlock delta key rounds b = { v0 := (x rounds.toNat).v0, v1 := (x rounds.toNat).v1 } := by
  rw [decipherBlock, ← hstart, iterate_of_sequence rounds.toNat hstep]

/-- The start sum of DecipherBlock is the low 32 bits of the product of the two numbers (R66, R76). -/
theorem decipherStartSum_eq_ofNat (delta rounds : Word) :
    decipherStartSum delta rounds = BitVec.ofNat 32 (rounds.toNat * delta.toNat) := by
  rw [decipherStartSum, BitVec.ofNat_mul, ofNat_toNat_word, ofNat_toNat_word]

/-- The loop of R75 runs zero times (R78). -/
@[simp] theorem encipherBlock_zero (delta : Word) (key : Key) (b : Block) : encipherBlock delta key 0#32 b = b := rfl

/-- The loop of R76 runs zero times (R78). -/
@[simp] theorem decipherBlock_zero (delta : Word) (key : Key) (b : Block) : decipherBlock delta key 0#32 b = b := rfl

/-- The transform of a direction reads KEY, ROUNDS and the parameters, nothing else of the state (R79). -/
theorem State.transform_congr {s s' : State} (hkey : s.key = s'.key) (hrounds : s.rounds = s'.rounds)
    (hconfig : s.config = s'.config) (dir : Direction) (b : Block) : s.transform dir b = s'.transform dir b := by
  cases dir with
  | enc => rw [State.transform, State.transform, hkey, hrounds, hconfig]
  | dec => rw [State.transform, State.transform, hkey, hrounds, hconfig]

/-! ## A command that passes every check -/

section Ready

variable {s : State} {src dst len cap : Word}

theorem State.BufferReady.passes (h : s.BufferReady src dst len cap) :
    BufferArgs.Passes s.config ⟨src, dst, len, cap⟩ :=
  ⟨h.lenOk, h.capOk, h.srcAdmitted, h.dstAdmitted, h.apart⟩

/-- A command that passes every check replaces MEM and ends with OK (R81, R97 step 9). -/
theorem State.BufferReady.exec_eq (h : s.BufferReady src dst len cap) (dir : Direction) :
    exec dir.command s = .next ((s.setMem (s.bufferResult dir ⟨src, dst, len, cap⟩)).finish .ok) := by
  rw [exec_directionCommand_of_clear dir h.notFaulted,
    bufferOp_of_passes h.configured (State.bufferOperands_eq_some.mpr h.written) h.passes]

/-- Output block `i` of a command that passes every check is the transform of input block `i` (R86). -/
theorem State.BufferReady.exec_block (h : s.BufferReady src dst len cap) (hm : Memory.wf s.mem) {dir : Direction}
    {t : State} (ht : exec dir.command s = .next t) {i : Nat} (hi : i < len.toNat / 8) :
    Memory.readBlock s.config.byteOrder t.mem (dst.toNat + 8 * i) =
      s.transform dir (Memory.readBlock s.config.byteOrder s.mem (src.toNat + 8 * i)) := by
  rw [h.exec_eq] at ht
  cases ht
  exact State.bufferResult_block h.passes hm hi

end Ready

/-! ## The statements -/

/-- Settles O31: each output block is the transform of its own input block, and the two commands have one transform. -/
theorem equalBlocksEqualResults : Obligations.EqualBlocksEqualResults := by
  intro dir s s' t t' src dst len cap src' dst' len' cap' hm hm' hs hs' hkey hrounds hconfig ht ht' i hi i' hi' heq
  have hout' := hs'.exec_block hm' ht' hi'
  rw [← hconfig] at hout'
  rw [hs.exec_block hm ht hi, hout', heq, State.transform_congr hkey hrounds hconfig]

/-- Settles O54: a sequence of ROUNDS rounds ends where the loop of the block transform does. -/
theorem blockTransformsRunRounds : Obligations.BlockTransformsRunRounds := by
  intro delta key rounds b x
  refine ⟨encipherBlock_of_sequence, fun hstart hstep => ?_⟩
  rw [← decipherStartSum_eq_ofNat] at hstart
  exact decipherBlock_of_sequence hstart hstep

/-- Settles O19: both loops run zero times. -/
theorem zeroRoundsIdentity : Obligations.ZeroRoundsIdentity :=
  fun delta key b => ⟨encipherBlock_zero delta key b, decipherBlock_zero delta key b⟩

end Sys2Proof.Machine

/-! SUPPORT. The buffer iterator's family of statements (43_buffer_iterator.md): everything a command that passes every check
does, a block as its eight big-endian bytes, and what ENCIPHER and DECIPHER answer at the length check and at the capacity
check of R81; then the statements themselves. -/

namespace Sys2Proof.Machine

/-! ## Every block is handled -/

/-- A command that passes every check answers a next state with RESULT = OK and no other register written, transforms every
block of the input to the output, and leaves every byte outside the output range (R86, R88). -/
theorem State.BufferReady.exec_transforms {s : State} {src dst len cap : Word} (h : s.BufferReady src dst len cap)
    (hm : Memory.wf s.mem) (dir : Direction) :
    ∃ t, exec dir.command s = .next t ∧ t = { s with mem := t.mem, result := .ok } ∧
      (∀ i < len.toNat / 8,
        Memory.readBlock s.config.byteOrder t.mem (dst.toNat + 8 * i) =
          s.transform dir (Memory.readBlock s.config.byteOrder s.mem (src.toNat + 8 * i))) ∧
      (∀ a, a < dst.toNat ∨ dst.toNat + len.toNat ≤ a → Memory.read t.mem a = Memory.read s.mem a) :=
  ⟨_, h.exec_eq dir, rfl, fun _ hi => h.exec_block hm (h.exec_eq dir) hi,
    fun _ ha => State.bufferResult_outside hm ha⟩

/-! ## The bytes of a block -/

/-- v0 is the big-endian word of bytes 0..3 and v1 of bytes 4..7 (R87). -/
theorem Memory.readBlock_be (m : Memory) (a : Nat) :
    Memory.readBlock .be m a =
      { v0 := Memory.read m a ++ Memory.read m (a + 1) ++ Memory.read m (a + 2) ++ Memory.read m (a + 3)
        v1 := Memory.read m (a + 4) ++ Memory.read m (a + 5) ++ Memory.read m (a + 6) ++ Memory.read m (a + 7) } :=
  rfl

/-- Where a big-endian block reads as `b`, bytes 0..3 are those of its v0, most significant first, and bytes 4..7 those of its
v1 (R87). -/
theorem Memory.read_of_readBlock_be {m : Memory} {a : Nat} {b : Block} (h : Memory.readBlock .be m a = b) {k : Nat}
    (hk : k < 4) : Memory.read m (a + k) = unbe32 b.v0 k ∧ Memory.read m (a + 4 + k) = unbe32 b.v1 k := by
  subst h
  exact ⟨Memory.read_of_readWord .be m a hk, Memory.read_of_readWord .be m (a + 4) hk⟩

/-! ## The length check and the capacity check -/

section Checks

variable {s : State} {o : BufferArgs}

theorem bufferOp_of_invalidLength (dir : Direction) (hc : s.cfgValid = true) (ho : s.bufferOperands = some o)
    (hlen : o.len.toNat % 8 ≠ 0) : bufferOp dir s = s.finish .invalidLength := by
  simp only [bufferOp, hc, Bool.true_eq_false, if_false, ho, if_pos hlen]

/-- The capacity check comes after the length check (R84). -/
theorem bufferOp_of_insufficientCapacity (dir : Direction) (hc : s.cfgValid = true) (ho : s.bufferOperands = some o)
    (hlen : o.len.toNat % 8 = 0) (hcap : o.cap.toNat < o.len.toNat) :
    bufferOp dir s = s.finish .insufficientOutputCapacity := by
  simp only [bufferOp, hc, Bool.true_eq_false, if_false, ho, if_neg (not_not.mpr hlen), if_pos hcap]

/-- The three results that are left once the length check and the capacity check have passed (R81, R97). -/
theorem State.ReachesRangeCheck.bufferOp_result (h : s.ReachesRangeCheck o) (dir : Direction) :
    (bufferOp dir s).result = .bufferRange ∨ (bufferOp dir s).result = .bufferOverlap ∨ (bufferOp dir s).result = .ok := by
  rw [h.bufferOp_eq]
  split
  · exact .inl rfl
  · split
    · exact .inr (.inl rfl)
    · exact .inr (.inr rfl)

end Checks

/-! ## The statements -/

/-- Settles O20: `exec_transforms` in the encipher direction. -/
theorem encipherTransformsEveryBlock : Obligations.EncipherTransformsEveryBlock :=
  fun _ _ _ _ _ hm h => h.exec_transforms hm .enc

/-- Settles O21: `exec_transforms` in the decipher direction. -/
theorem decipherTransformsEveryBlock : Obligations.DecipherTransformsEveryBlock :=
  fun _ _ _ _ _ hm h => h.exec_transforms hm .dec

/-- Settles O22: the output block is the transform of the input block, `readBlock_be` writes the input block as its bytes, and
`read_of_readBlock_be` gives each byte of the output block. -/
theorem blockBytesBigEndian : Obligations.BlockBytesBigEndian := by
  intro dir s t src dst len cap hm hbe h ht i hi
  have hblock := h.exec_block hm ht hi
  rw [hbe, Memory.readBlock_be s.mem] at hblock
  obtain ⟨h0, h4⟩ := Memory.read_of_readBlock_be hblock (k := 0) (by decide)
  obtain ⟨h1, h5⟩ := Memory.read_of_readBlock_be hblock (k := 1) (by decide)
  obtain ⟨h2, h6⟩ := Memory.read_of_readBlock_be hblock (k := 2) (by decide)
  obtain ⟨h3, h7⟩ := Memory.read_of_readBlock_be hblock (k := 3) (by decide)
  exact ⟨h0, h1, h2, h3, h4, h5, h6, h7⟩

/-- Settles O24: a length that passes leaves the capacity check and the three results after it. -/
theorem lengthCheck : Obligations.LengthCheck := by
  intro dir s src dst len cap hf hc ha
  have ho : s.bufferOperands = some ⟨src, dst, len, cap⟩ := State.bufferOperands_eq_some.mpr ha
  rw [exec_directionCommand_of_clear dir hf]
  constructor
  · intro hlen
    rw [bufferOp_of_invalidLength dir hc ho hlen]; rfl
  · intro hlen
    refine ⟨_, rfl, ?_⟩
    obtain hcap | hcap := Nat.lt_or_ge cap.toNat len.toNat
    · rw [bufferOp_of_insufficientCapacity dir hc ho hlen hcap]; simp
    · have hreach : s.ReachesRangeCheck ⟨src, dst, len, cap⟩ := ⟨hc, ho, hlen, hcap⟩
      obtain hr | hr | hr := hreach.bufferOp_result dir <;> simp [hr]

/-- Settles O25: a capacity that passes leaves the three results after the capacity check. -/
theorem capacityCheck : Obligations.CapacityCheck := by
  intro dir s src dst len cap hf hc ha hlen
  have ho : s.bufferOperands = some ⟨src, dst, len, cap⟩ := State.bufferOperands_eq_some.mpr ha
  rw [exec_directionCommand_of_clear dir hf]
  constructor
  · intro hcap
    rw [bufferOp_of_insufficientCapacity dir hc ho hlen hcap]; rfl
  · intro hcap
    have hreach : s.ReachesRangeCheck ⟨src, dst, len, cap⟩ := ⟨hc, ho, hlen, hcap⟩
    exact ⟨_, rfl, by obtain hr | hr | hr := hreach.bufferOp_result dir <;> simp [hr]⟩

end Sys2Proof.Machine

/-! SUPPORT. The exceptions' family of statements (60_exceptions.md): the table of R97 read row by row and matched to each
command's own checks, the codes of R93 and their kinds, and what a faulted engine still does; then the statements
themselves. -/

namespace Sys2Proof.Machine

/-! ## The table of checks -/

/-- The outcome of the first row that applies, OK when none does: `checkOutcome` over any table. -/
def firstOutcome (rows : List (Bool × ResultCode)) : ResultCode :=
  match rows.find? (fun row => row.1) with
  | some row => row.2
  | none => .ok

theorem checkOutcome_eq_firstOutcome (w : Word) (s : State) : checkOutcome w s = firstOutcome (checkTable w s) := rfl

@[simp] theorem firstOutcome_nil : firstOutcome [] = .ok := rfl

@[simp] theorem firstOutcome_cons (b : Bool) (c : ResultCode) (rows : List (Bool × ResultCode)) :
    firstOutcome ((b, c) :: rows) = if b then c else firstOutcome rows := by
  cases b with
  | true => rfl
  | false => rfl

/-- Row 2 of R97. -/
theorem checkOutcome_of_illegal {w : Word} {e : IllegalWord} (hw : decode w = .error e) (s : State) :
    checkOutcome w s = .illegalCommand := by
  have hne : ∀ i : Instr, w ≠ encode i := by
    rintro i rfl
    cases (decode_encode i).symm.trans hw
  have hrow : w ≠ 1#32 ∧ w ≠ 2#32 ∧ w ≠ 3#32 ∧ w ≠ 4#32 :=
    ⟨hne .usingKey, hne .withRounds, hne .encipher, hne .decipher⟩
  rw [checkOutcome_eq_firstOutcome, checkTable, firstOutcome_cons, if_pos (decide_eq_true hrow)]

/-- USING_KEY meets one check, that of its operands (R97). -/
theorem checkOutcome_usingKey (s : State) :
    checkOutcome (encode .usingKey) s = if ∃ n : Fin 4, s.arg[n] = none then .argUnwritten else .ok := by
  simp only [exists_unwritten_iff]
  simp [checkOutcome_eq_firstOutcome, checkTable, encode]

/-- WITH_ROUNDS meets two checks, the second of ARG0 alone (R97). -/
theorem checkOutcome_withRounds (s : State) :
    checkOutcome (encode .withRounds) s =
      if s.cfgValid = false then .notConfigured else if s.arg[0] = none then .argUnwritten else .ok := by
  simp [checkOutcome_eq_firstOutcome, checkTable, encode]

theorem checkOutcome_directionCommand_of_notConfigured (dir : Direction) {s : State} (hc : s.cfgValid = false) :
    checkOutcome (encode dir.command) s = .notConfigured := by
  cases dir with
  | enc | dec => simp [checkOutcome_eq_firstOutcome, checkTable, encode, Direction.command, hc]

theorem checkOutcome_directionCommand_of_unwritten (dir : Direction) {s : State} (hc : s.cfgValid = true)
    (hn : ∃ n : Fin 4, s.arg[n] = none) : checkOutcome (encode dir.command) s = .argUnwritten := by
  rw [exists_unwritten_iff] at hn
  cases dir with
  | enc | dec => simp [checkOutcome_eq_firstOutcome, checkTable, encode, Direction.command, hc, hn]

theorem State.argNat_of_operands {s : State} {o : BufferArgs} (ho : s.bufferOperands = some o) :
    s.argNat 0 = o.src.toNat ∧ s.argNat 1 = o.dst.toNat ∧ s.argNat 2 = o.len.toNat ∧ s.argNat 3 = o.cap.toNat := by
  simp [State.argNat, State.bufferOperands_eq_some.mp ho]

/-- The last four checks of ENCIPHER and DECIPHER, over their operands (R97). -/
theorem checkOutcome_directionCommand_of_operands (dir : Direction) {s : State} {o : BufferArgs}
    (hc : s.cfgValid = true) (ho : s.bufferOperands = some o) :
    checkOutcome (encode dir.command) s =
      if o.len.toNat % 8 ≠ 0 then .invalidLength
      else if o.cap.toNat < o.len.toNat then .insufficientOutputCapacity
      else if ¬ (admitted s.config.memSize o.src.toNat o.len.toNat ∧
          admitted s.config.memSize o.dst.toNat o.len.toNat) then .bufferRange
      else if overlap o.src.toNat o.dst.toNat o.len.toNat then .bufferOverlap
      else .ok := by
  have ha := State.bufferOperands_eq_some.mp ho
  obtain ⟨h0, h1, h2, h3⟩ := State.argNat_of_operands ho
  cases dir with
  | enc | dec =>
    simp [checkOutcome_eq_firstOutcome, checkTable, encode, Direction.command, h0, h1, h2, h3, hc, ha, -Bool.decide_and,
      -Bool.decide_or, -not_and, -not_or]

/-! ## How a command ends -/

/-- A command on `s` answered `t` with the outcome `c`: RESULT is `c`, and an outcome other than OK wrote RESULT and FAULT
alone (R94, R95, R97). -/
def State.EndsWith (s t : State) (c : ResultCode) : Prop :=
  t.result = c ∧ (c ≠ .ok → t = { s with result := c, fault := c.isFault })

section Ends

variable {s : State} {c : ResultCode}

theorem State.endsWith_ok {t : State} (h : t.result = .ok) : s.EndsWith t .ok := ⟨h, fun hne => absurd rfl hne⟩

theorem State.endsWith_finish (hf : s.fault = false) (hc : c.isFault = false) : s.EndsWith (s.finish c) c :=
  ⟨rfl, fun _ => by rw [hc, ← hf]; rfl⟩

theorem State.endsWith_raiseFault (hc : c.isFault = true) : s.EndsWith (s.raiseFault c) c :=
  ⟨rfl, fun _ => by rw [hc]; rfl⟩

theorem usingKey_endsWith (s : State) : s.EndsWith (usingKey s) (checkOutcome (encode .usingKey) s) := by
  rw [checkOutcome_usingKey]
  obtain ⟨hn, h⟩ | ⟨k0, k1, k2, k3, ha, h⟩ := usingKey_cases s
  · rw [h, if_pos hn]
    exact State.endsWith_raiseFault rfl
  · have hn : ¬ ∃ n : Fin 4, s.arg[n] = none := by rw [exists_unwritten_iff, ha]; simp
    rw [h, if_neg hn]
    exact State.endsWith_ok rfl

theorem withRounds_endsWith (hf : s.fault = false) :
    s.EndsWith (withRounds s) (checkOutcome (encode .withRounds) s) := by
  rw [checkOutcome_withRounds]
  obtain ⟨hc, h⟩ | ⟨hc, hn, h⟩ | ⟨hc, n, hn, h⟩ := withRounds_cases s
  · rw [h, if_pos hc]
    exact State.endsWith_finish hf rfl
  · rw [h, if_neg (by simp [hc]), if_pos hn]
    exact State.endsWith_raiseFault rfl
  · rw [h, if_neg (by simp [hc]), if_neg (by simp [hn])]
    exact State.endsWith_ok rfl

/-- The last four checks of R81 are made in the order of R97. -/
theorem bufferOp_endsWith_of_operands (dir : Direction) {o : BufferArgs} (hf : s.fault = false)
    (hc : s.cfgValid = true) (ho : s.bufferOperands = some o) :
    s.EndsWith (bufferOp dir s) (checkOutcome (encode dir.command) s) := by
  rw [checkOutcome_directionCommand_of_operands dir hc ho]
  split
  · next hlen => rw [bufferOp_of_invalidLength dir hc ho hlen]; exact State.endsWith_finish hf rfl
  next hlen =>
  have hlen := not_not.mp hlen
  split
  · next hcap => rw [bufferOp_of_insufficientCapacity dir hc ho hlen hcap]; exact State.endsWith_finish hf rfl
  next hcap =>
  have hreach : s.ReachesRangeCheck o := ⟨hc, ho, hlen, Nat.not_lt.mp hcap⟩
  split
  · next hout => rw [hreach.bufferOp_of_notAdmitted dir (not_and_or.mp hout)]; exact State.endsWith_raiseFault rfl
  next hin =>
  obtain ⟨hsrc, hdst⟩ := not_not.mp hin
  split
  · next hover => rw [hreach.bufferOp_of_overlap dir hsrc hdst hover]; exact State.endsWith_raiseFault rfl
  · next hapart => rw [hreach.bufferOp_of_apart dir hsrc hdst hapart]; exact State.endsWith_ok rfl

theorem bufferOp_endsWith (dir : Direction) (hf : s.fault = false) :
    s.EndsWith (bufferOp dir s) (checkOutcome (encode dir.command) s) := by
  cases hc : s.cfgValid with
  | false =>
    rw [bufferOp_of_notConfigured dir hc, checkOutcome_directionCommand_of_notConfigured dir hc]
    exact State.endsWith_finish hf rfl
  | true =>
    cases ho : s.bufferOperands with
    | none =>
      have hn := State.bufferOperands_eq_none.mp ho
      rw [bufferOp_of_unwritten dir hc hn, checkOutcome_directionCommand_of_unwritten dir hc hn]
      exact State.endsWith_raiseFault rfl
    | some o => exact bufferOp_endsWith_of_operands dir hf hc ho

/-- Every command on an engine that is not faulted ends with the outcome of the table of R97. -/
theorem exec_endsWith (i : Instr) (hf : s.fault = false) :
    ∃ t, exec i s = .next t ∧ s.EndsWith t (checkOutcome (encode i) s) := by
  cases i with
  | usingKey => exact ⟨_, by rw [exec_usingKey, State.ifTaken_of_clear hf], usingKey_endsWith s⟩
  | withRounds => exact ⟨_, by rw [exec_withRounds, State.ifTaken_of_clear hf], withRounds_endsWith hf⟩
  | encipher => exact ⟨_, exec_directionCommand_of_clear .enc hf, bufferOp_endsWith .enc hf⟩
  | decipher => exact ⟨_, exec_directionCommand_of_clear .dec hf, bufferOp_endsWith .dec hf⟩

/-- Every word written to CMD of an engine that is not faulted ends with the outcome of the table of R97. -/
theorem commandStep_endsWith (w : Word) (hf : s.fault = false) :
    ∃ t, commandStep w s = .next t ∧ s.EndsWith t (checkOutcome w s) := by
  obtain ⟨e, hw, _⟩ | ⟨i, hw, h⟩ := commandStep_cases w s
  · rw [checkOutcome_of_illegal hw]
    exact ⟨_, commandStep_of_illegal hw hf, State.endsWith_finish hf rfl⟩
  · rw [h, decode_eq_ok_iff.mp hw]
    exact exec_endsWith i hf

end Ends

/-! ## The kinds of the codes -/

/-- The codes of kind *fault* are those from 5 on (R93). -/
theorem ResultCode.isFault_iff (c : ResultCode) : c.isFault = true ↔ 5 ≤ c.code.toNat := by
  cases c <;> decide

theorem ResultCode.code_lt_of_not_isFault {c : ResultCode} (h : c.isFault = false) : c.code.toNat < 5 := by
  rw [← Nat.not_le, ← c.isFault_iff, h]
  decide

/-! ## A faulted engine -/

/-- Of the host operations reset alone clears FAULT, and on a faulted engine reset alone changes RESULT (R98). -/
theorem hostOp_status_of_fault {op : HostOp} {s t : State} (h : hostOp op s = .next t) (hf : s.fault = true) :
    (t.fault = true ∧ t.result = s.result) ∨ op = .reset := by
  obtain ⟨_, _, _, rfl⟩ | ⟨w, _, hw⟩ | ⟨_, _, rfl⟩ | ⟨_, _, _, rfl⟩ | ⟨r, _, rfl⟩ | ⟨_, _, _, _, rfl⟩ |
    ⟨_, _, _, rfl⟩ | ⟨hop, _⟩ := hostOp_cases h
  · exact .inl ⟨hf, rfl⟩
  · rw [commandStep_of_fault w hf] at hw
    cases hw
    exact .inl ⟨hf, rfl⟩
  · exact .inl ⟨hf, rfl⟩
  · exact .inl ⟨hf, rfl⟩
  · rw [readReg_frame]
    exact .inl ⟨hf, rfl⟩
  · exact .inl ⟨hf, rfl⟩
  · exact .inl ⟨hf, rfl⟩
  · exact .inr hop

theorem step_status_of_fault {s t : State} (h : step s = .next t) (hf : s.fault = true) (hr : s.nextOpNotReset) :
    t.fault = true ∧ t.result = s.result := by
  obtain ⟨_, rfl⟩ | ⟨op, rest, hops, hop⟩ := step_cases h
  · exact ⟨hf, rfl⟩
  · refine (hostOp_status_of_fault (s := s.setOps rest) hop hf).resolve_right ?_
    rintro rfl
    exact hr (by rw [hops]; rfl)

/-! ## The statements -/

/-- Settles O33: a faulted engine by `commandStep_of_fault`, any other by the table of R97 in `commandStep_endsWith`. -/
theorem firstCheckDecides : Obligations.FirstCheckDecides := fun w _ =>
  ⟨commandStep_of_fault w, commandStep_endsWith w⟩

/-- Settles O34: by the effect of the word and the range of the code that goes with it. -/
theorem errorsAndFaultsWriteStatusOnly : Obligations.ErrorsAndFaultsWriteStatusOnly := by
  intro w s t h hf
  cases commandStep_effect h with
  | notTaken hfault => simp [hf] at hfault
  | errored c _ hc _ =>
    have hlt := ResultCode.code_lt_of_not_isFault hc
    exact ⟨fun _ _ => rfl, fun h5 => absurd h5 (Nat.not_le.mpr hlt), fun _ => hf⟩
  | faulted c _ hc =>
    have h5 : 5 ≤ c.code.toNat := c.isFault_iff.mp hc
    refine ⟨fun _ (h4 : c.code.toNat ≤ 4) => by omega, fun _ => rfl, fun (h0 : c.code = 0#4) => ?_⟩
    simp [h0] at h5
  | configured | roundsSet | transformed =>
    exact ⟨fun h1 => absurd h1 (by decide : ¬ 1 ≤ 0), fun h5 => absurd h5 (by decide : ¬ 5 ≤ 0), fun _ => hf⟩

/-- Settles O35: `exec_of_fault` and `commandStep_of_fault` for commands, `step_status_of_fault` for every step, the bus at the
offsets of ARG and STATUS, and reset. -/
theorem faultStopsEngineUntilReset : Obligations.FaultStopsEngineUntilReset := by
  refine ⟨fun i _ => exec_of_fault i, ?_, fun _ _ => step_status_of_fault, ?_, ?_, ?_, ?_⟩
  · intro w s rest hf hops
    exact (step_busWr (r := .cmd) hops).trans (commandStep_of_fault w (s := s.setOps rest) hf)
  · intro s rest n v _ hops
    exact step_busWr (r := .arg n) hops
  · intro s rest n v _ hv hops
    rw [step_busRd (r := .arg n) hops, readReg_arg_of_written (s := s.setOps rest) hv]
  · intro s rest _ hops
    exact step_busRd (r := .status) hops
  · intro s rest hops
    exact ⟨_, step_op hops, rfl⟩

/-- Settles O5: `step_idle`. -/
theorem idleEngineKeepsState : Obligations.IdleEngineKeepsState := fun _ => step_idle

end Sys2Proof.Machine

/-! SUPPORT. The statements about every step of the machine (10_state.md section 1, 60_exceptions.md section 3): one inversion of
the step, the frame of a CMD write, the invariant kept by every step, and a faulted engine over whole runs; then the statements
themselves. -/

namespace Sys2Proof.Machine

/-! ## What one step can do -/

/-- The machine with another host's side put in. -/
def State.withHost (s : State) (h : HostSide) : State := { s with host := h }

/-- Everything one step can do, with the host operation it takes off the list. -/
inductive StepEffect (s : State) : State → Prop
  /-- The host writes CMD (R27). -/
  | command (w : Word) (rest : List HostOp) (t : State) (hops : s.host.ops = busWr s.config .cmd w :: rest)
      (heffect : CommandEffect w (s.setOps rest) t) : StepEffect s t
  /-- The host writes ARGn (R21). -/
  | argWritten (n : Fin 4) (v : Word) (rest : List HostOp) (hops : s.host.ops = busWr s.config (.arg n) v :: rest) :
      StepEffect s ((s.setOps rest).setArg n v)
  /-- The host writes a byte of MEM (R35). -/
  | memWritten (a : Word) (v : Byte) (rest : List HostOp) (hops : s.host.ops = .memWrite a v :: rest)
      (ha : a.toNat < s.config.memSize) : StepEffect s ((s.setOps rest).setMem (Memory.write s.mem a.toNat v))
  /-- The host raises reset (R109). -/
  | reset (rest : List HostOp) (hops : s.host.ops = .reset :: rest) : StepEffect s (s.setOps rest).hostReset
  /-- Only the host's side moves: no operation, a read, or a write that is ignored (R18, R22, R108). -/
  | hostOnly (host : HostSide) (hops : host.ops = s.host.ops.tail) : StepEffect s (s.withHost host)

theorem readReg_ops (r : Reg) (s : State) : (readReg r s).host.ops = s.host.ops := by
  cases r with
  | arg n => simp only [readReg]; split <;> rfl
  | cmd | status | reserved => rfl

/-- The inversion of a step. -/
theorem step_effect {s t : State} (h : step s = .next t) : StepEffect s t := by
  obtain ⟨hnil, rfl⟩ | ⟨op, rest, hops, hop⟩ := step_cases h
  · exact .hostOnly t.host (by rw [hnil]; rfl)
  · have htail : rest = s.host.ops.tail := by rw [hops]; rfl
    obtain ⟨n, v, rfl, rfl⟩ | ⟨w, rfl, hw⟩ | ⟨v, rfl, rfl⟩ | ⟨n, v, rfl, rfl⟩ | ⟨r, rfl, rfl⟩ | ⟨a, v, rfl, ha, rfl⟩ |
      ⟨a, rfl, ha, rfl⟩ | ⟨rfl, rfl⟩ := hostOp_cases hop
    · exact .argWritten n v rest hops
    · exact .command w rest t hops (commandStep_effect hw)
    · exact .hostOnly _ htail
    · exact .hostOnly _ htail
    · rw [readReg_frame]
      exact .hostOnly _ ((readReg_ops r _).trans htail)
    · exact .memWritten a v rest hops ha
    · exact .hostOnly _ htail
    · exact .reset rest hops

/-- A CMD write leaves the host's side, the ARG registers and the parameters (R26, R32). -/
theorem CommandEffect.frame {w : Word} {s t : State} (h : CommandEffect w s t) :
    t.host = s.host ∧ t.arg = s.arg ∧ t.config = s.config := by
  cases h with
  | notTaken | errored | faulted | configured | roundsSet | transformed => exact ⟨rfl, rfl, rfl⟩

theorem step_config {s t : State} (h : step s = .next t) : t.config = s.config := by
  cases step_effect h with
  | command w rest _ _ heffect =>
    obtain ⟨_, _, hconfig⟩ := heffect.frame
    exact hconfig
  | argWritten | memWritten | reset | hostOnly => rfl

/-- Every step takes one operation off the host's list and puts none on it (R47). -/
theorem step_ops {s t : State} (h : step s = .next t) : t.host.ops = s.host.ops.tail := by
  cases step_effect h with
  | command w rest _ hops heffect =>
    obtain ⟨hhost, _, _⟩ := heffect.frame
    rw [hhost, hops]; rfl
  | argWritten _ _ _ hops | memWritten _ _ _ hops | reset _ hops => rw [hops]; rfl
  | hostOnly host hops => exact hops

/-! ## The invariant -/

/-- A CMD write keeps the invariant: every error and every fault goes with its FAULT bit, USING_KEY needs the four ARG
registers, and the block loop stays inside MEM (R42, R62, R94, R95). -/
theorem CommandEffect.inv {w : Word} {s t : State} (h : CommandEffect w s t) (hs : s.Inv) : t.Inv := by
  obtain ⟨hwf, hwithin, hstatus, hargs⟩ := hs
  cases h with
  | notTaken => exact ⟨hwf, hwithin, hstatus, hargs⟩
  | errored c hf hc => exact ⟨hwf, hwithin, hf.trans hc.symm, hargs⟩
  | faulted c _ hc => exact ⟨hwf, hwithin, hc.symm, hargs⟩
  | configured k0 k1 k2 k3 hf _ ha =>
    have hwritten : ¬ ∃ n : Fin 4, s.arg[n] = none := by rw [exists_unwritten_iff, ha]; simp
    exact ⟨hwf, hwithin, hf, fun _ n hn => hwritten ⟨n, hn⟩⟩
  | roundsSet _ hf => exact ⟨hwf, hwithin, hf, hargs⟩
  | transformed dir o hf _ _ _ hp =>
    exact ⟨State.bufferResult_wf hwf, State.bufferResult_within hp hwithin, hf, hargs⟩

theorem State.Inv.setArg {s : State} (hs : s.Inv) (n : Fin 4) (v : Word) : (s.setArg n v).Inv := by
  refine ⟨hs.memWf, hs.memWithin, hs.faultMatchesResult, fun hv m => ?_⟩
  by_cases hm : m = n
  · subst hm
    rw [setArg_arg_same]
    exact Option.some_ne_none v
  · rw [setArg_arg_of_ne s v hm]
    exact hs.configuredArgsWritten hv m

theorem State.Inv.setMem {s : State} (hs : s.Inv) {m : Memory} (hwf : Memory.wf m)
    (hwithin : Memory.within s.config.memSize m) : (s.setMem m).Inv :=
  ⟨hwf, hwithin, hs.faultMatchesResult, hs.configuredArgsWritten⟩

theorem State.Inv.hostReset {s : State} (hs : s.Inv) : s.hostReset.Inv :=
  ⟨hs.memWf, hs.memWithin, rfl, fun hv => absurd hv Bool.false_ne_true⟩

/-- The invariant says nothing of the host's side. -/
theorem State.Inv.withHost {s : State} (hs : s.Inv) (host : HostSide) : (s.withHost host).Inv :=
  ⟨hs.memWf, hs.memWithin, hs.faultMatchesResult, hs.configuredArgsWritten⟩

/-! ## A faulted engine -/

/-- The registers that a faulted engine holds on to (R98). -/
def State.heldInFault (s : State) : Bool × ResultCode × Key × Word × Bool :=
  (s.fault, s.result, s.key, s.rounds, s.cfgValid)

theorem step_heldInFault {s t : State} (h : step s = .next t) (hf : s.fault = true) (hr : s.nextOpNotReset) :
    t.heldInFault = s.heldInFault := by
  cases step_effect h with
  | command w rest _ _ heffect =>
    have hclear : ¬ s.fault = false := by simp [hf]
    cases heffect with
    | notTaken => rfl
    | errored _ hc | faulted _ hc | configured _ _ _ _ hc | roundsSet _ hc | transformed _ _ hc => exact absurd hc hclear
  | reset rest hops => exact absurd (by rw [hops]; rfl) hr
  | argWritten | memWritten | hostOnly => rfl

theorem run_heldInFault {k : Nat} {s t : State} (hf : s.fault = true) (hr : HostOp.reset ∉ s.host.ops)
    (h : (Host.Core.run Sys2Proof.core k s : Host.Outcome State Fault Refusal) = .next t) :
    t.heldInFault = s.heldInFault := by
  induction k generalizing s with
  | zero => rw [run_zero] at h; cases h; rfl
  | succ k ih =>
    cases hs : step s with
    | next u =>
      have hu : u.heldInFault = s.heldInFault := step_heldInFault hs hf fun hop => hr (List.mem_of_head? hop)
      have huf : u.fault = true := (congrArg Prod.fst hu).trans hf
      have hur : HostOp.reset ∉ u.host.ops := fun hmem => hr (List.mem_of_mem_tail (step_ops hs ▸ hmem))
      rw [run_succ_of_next hs] at h
      exact (ih huf hur h).trans hu
    | fault r => rw [run_succ_of_fault hs] at h; cases h
    | refused r => rw [run_succ_of_refused hs] at h; cases h

/-! ## Which commands write what -/

theorem nextOpIsCommand_of_decode {s : State} {w : Word} {i : Instr} {rest : List HostOp} {ws : List Word}
    (hops : s.host.ops = busWr s.config .cmd w :: rest) (hw : decode w = .ok i) (hmem : encode i ∈ ws) :
    s.nextOpIsCommand ws :=
  ⟨encode i, hmem, by rw [hops, decode_eq_ok_iff.mp hw]; rfl⟩

/-- A CMD write changes RESULT only while FAULT is 0 (R30, R98). -/
theorem CommandEffect.result_changed {w : Word} {s t : State} (h : CommandEffect w s t) (hne : t.result ≠ s.result) :
    s.fault = false := by
  cases h with
  | notTaken => exact absurd rfl hne
  | errored _ hf | faulted _ hf | configured _ _ _ _ hf | roundsSet _ hf | transformed _ _ hf => exact hf

/-- Of the words written to CMD, ENCIPHER's and DECIPHER's alone change MEM (R35). -/
theorem CommandEffect.mem_changed {w : Word} {s t : State} (h : CommandEffect w s t) (hne : t.mem ≠ s.mem) :
    ∃ dir : Direction, decode w = .ok dir.command := by
  cases h with
  | transformed dir _ _ hw => exact ⟨dir, hw⟩
  | notTaken | errored | faulted | configured | roundsSet => exact absurd rfl hne

/-! ## The statements -/

/-- Settles O50: by the inversion of the step, and the part of the state that each effect writes. -/
theorem stepKeepsInv : Obligations.StepKeepsInv := by
  intro s t hs h
  cases step_effect h with
  | command w rest _ _ heffect => exact heffect.inv (hs.withHost _)
  | argWritten n v rest => exact State.Inv.setArg (hs.withHost _) n v
  | memWritten a v rest _ ha =>
    exact State.Inv.setMem (hs.withHost _) (Memory.write_wf hs.memWf _ _) (Memory.write_within hs.memWithin ha _)
  | reset rest => exact State.Inv.hostReset (hs.withHost _)
  | hostOnly host => exact hs.withHost host

/-- Settles O36: by induction on the number of steps, `step_heldInFault` for each. -/
theorem faultLastsThroughRun : Obligations.FaultLastsThroughRun := by
  intro k s t hf hr h
  obtain ⟨hfault, hresult, hkey, hrounds, hvalid⟩ : t.fault = s.fault ∧ t.result = s.result ∧ t.key = s.key ∧
      t.rounds = s.rounds ∧ t.cfgValid = s.cfgValid := by
    simpa only [State.heldInFault, Prod.mk.injEq] using run_heldInFault hf hr h
  refine ⟨?_, hresult, hkey, hrounds, hvalid⟩
  rw [State.correctEnd, hfault, hf]
  exact Bool.noConfusion

/-- Settles O6: a CMD write always answers (`commandStep_next`), and its effect frames the rest. -/
theorem everyCommandWordEnds : Obligations.EveryCommandWordEnds := by
  intro w s
  obtain ⟨t, ht⟩ := commandStep_next w s
  exact ⟨t, ht, (commandStep_effect ht).frame⟩

/-- Settles O43: of the effects of a step, USING_KEY's alone writes KEY and CFG_VALID, and WITH_ROUNDS's is the only other one that
writes ROUNDS. -/
theorem configurationWriters : Obligations.ConfigurationWriters := by
  intro s t h hr
  cases step_effect h with
  | command w rest _ hops heffect =>
    cases heffect with
    | configured _ _ _ _ _ hw =>
      exact ⟨fun _ => nextOpIsCommand_of_decode hops hw (by decide), fun _ => nextOpIsCommand_of_decode hops hw (by decide),
        fun _ => nextOpIsCommand_of_decode hops hw (by decide)⟩
    | roundsSet _ _ hw => exact ⟨absurd rfl, fun _ => nextOpIsCommand_of_decode hops hw (by decide), absurd rfl⟩
    | notTaken | errored | faulted | transformed => exact ⟨absurd rfl, absurd rfl, absurd rfl⟩
  | reset rest hops => exact absurd (by rw [hops]; rfl) hr
  | argWritten | memWritten | hostOnly => exact ⟨absurd rfl, absurd rfl, absurd rfl⟩

/-- Settles O44: by the inversion of the step, and of the CMD write for RESULT and MEM. -/
theorem statusAndMemoryWriters : Obligations.StatusAndMemoryWriters := by
  intro s t h
  cases step_effect h with
  | command w rest _ hops heffect =>
    have hhead : s.host.ops.head? = some (busWr s.config .cmd w) := by rw [hops]; rfl
    refine ⟨fun hne => .inr ⟨heffect.result_changed hne, w, hhead⟩, fun _ => .inr ⟨w, hhead⟩, fun hne => .inl ?_⟩
    obtain ⟨dir, hw⟩ := heffect.mem_changed hne
    exact nextOpIsCommand_of_decode hops hw (by cases dir <;> decide)
  | reset rest hops =>
    have hhead : s.host.ops.head? = some .reset := by rw [hops]; rfl
    exact ⟨fun _ => .inl hhead, fun _ => .inl hhead, absurd rfl⟩
  | memWritten a v rest hops =>
    exact ⟨absurd rfl, absurd rfl, fun _ => .inr ⟨a, v, by rw [hops]; rfl⟩⟩
  | argWritten | hostOnly => exact ⟨absurd rfl, absurd rfl, absurd rfl⟩

/-- Settles O45: no effect of a step writes the parameters. -/
theorem parametersNeverChange : Obligations.ParametersNeverChange := fun _ _ => step_config

/-- Settles O10: the two commands' effects on ARG, MEM, the parameters and the host's side, and on the configuration when the
result is not OK. -/
theorem configurationCommandsFrame : Obligations.ConfigurationCommandsFrame := by
  intro i s t hi h
  rw [← commandStep_encode] at h
  have heffect := commandStep_effect h
  obtain ⟨hhost, harg, hconfig⟩ := heffect.frame
  have hmem : t.mem = s.mem := by
    by_contra hne
    obtain ⟨dir, hdir⟩ := heffect.mem_changed hne
    rw [decode_encode] at hdir
    obtain rfl : i = dir.command := Except.ok.inj hdir
    cases dir with
    | enc | dec => simp [Direction.command] at hi
  refine ⟨harg, hmem, fun a => by rw [hmem], hconfig, hhost, ?_, ?_⟩
  · rintro rfl
    cases heffect with
    | configured _ _ _ _ _ hw => cases hw
    | notTaken | errored | faulted | roundsSet | transformed => exact ⟨rfl, rfl⟩
  · intro hne
    cases heffect with
    | notTaken | errored | faulted => exact ⟨rfl, rfl, rfl⟩
    | configured | roundsSet | transformed => exact absurd rfl hne

/-- Settles O49: MEM lists nothing, STATUS is 0, and MEM_SIZE is 2^32. -/
theorem invAtReset : Obligations.InvAtReset :=
  ⟨⟨Memory.wf_nil, fun _ hx => absurd hx List.not_mem_nil, rfl, fun hv => absurd hv Bool.false_ne_true⟩, Nat.le_refl _⟩

end Sys2Proof.Machine

/-! SUPPORT. The noninterference statements (00_scope.md section 5, 10_state.md section 5): the machine with another KEY and
ROUNDS put in, and with another host's side put in; then the statements themselves. -/

namespace Sys2Proof.Machine

/-! ## Outcomes seen through a function -/

theorem mapNext_eq_next {f : State → State} {o : Host.Outcome State Fault Refusal} {t : State} :
    mapNext f o = .next t ↔ ∃ u, o = .next u ∧ f u = t := by
  cases o with
  | next u => simp [mapNext]
  | fault | refused => simp [mapNext]

theorem mapNext_eq_fault {f : State → State} {o : Host.Outcome State Fault Refusal} {r : Fault} :
    mapNext f o = .fault r ↔ o = .fault r := by
  cases o with
  | next | fault | refused => simp [mapNext]

theorem mapNext_eq_refused {f : State → State} {o : Host.Outcome State Fault Refusal} {r : Refusal} :
    mapNext f o = .refused r ↔ o = .refused r := by
  cases o with
  | next | fault | refused => simp [mapNext]

/-! ## Another KEY and ROUNDS -/

/-- The machine with another KEY and ROUNDS put in. -/
def State.rekey (s : State) (key : Key) (rounds : Word) : State := { s with key := key, rounds := rounds }

section Rekey

variable {s s' : State} (key : Key) (rounds : Word)

/-- No register read sees KEY or ROUNDS (R24, R25). -/
theorem readReg_rekey (r : Reg) : readReg r (s.rekey key rounds) = (readReg r s).rekey key rounds := by
  cases r with
  | arg n =>
    cases hn : s.arg[n] with
    | some v => rw [readReg_arg_of_written hn, readReg_arg_of_written (s := s.rekey key rounds) hn]; rfl
    | none => rw [readReg_arg_of_unwritten hn, readReg_arg_of_unwritten (s := s.rekey key rounds) hn]; rfl
  | cmd | status | reserved => rfl

theorem hostOp_busRead_rekey (addr bytes : Nat) :
    hostOp (.busRead addr bytes) (s.rekey key rounds) =
      mapNext (fun t => t.rekey key rounds) (hostOp (.busRead addr bytes) s) := by
  have hconfig : (s.rekey key rounds).config = s.config := rfl
  simp only [hostOp, hconfig, readReg_rekey]
  cases registerAt s.config addr bytes with
  | ok | error => rfl

theorem hostOp_memRead_rekey (a : Word) :
    hostOp (.memRead a) (s.rekey key rounds) = mapNext (fun t => t.rekey key rounds) (hostOp (.memRead a) s) := by
  obtain ha | ha := Nat.lt_or_ge a.toNat s.config.memSize
  · rw [hostOp_memRead ha, hostOp_memRead (s := s.rekey key rounds) ha]; rfl
  · rw [hostOp_memRead_out ha, hostOp_memRead_out (s := s.rekey key rounds) ha]; rfl

/-! ## What an unconfigured machine shows -/

theorem observable_of_configured (hc : s.cfgValid = true) : s.observable = s := by
  simp [State.observable, hc]

theorem observable_of_unconfigured (hc : s.cfgValid = false) :
    s.observable = s.rekey #v[0#32, 0#32, 0#32, 0#32] 0#32 := by
  simp [State.observable, hc, State.rekey]

theorem observable_cfgValid (s : State) : s.observable.cfgValid = s.cfgValid := by
  unfold State.observable
  split <;> rfl

/-- The host cannot tell a state from what of it is observable (R112). -/
theorem observation_observable (s : State) : s.observable.observation = s.observation := by
  unfold State.observable
  split <;> rfl

theorem observable_rekey (hc : s.cfgValid = false) : (s.rekey key rounds).observable = s.observable := by
  rw [observable_of_unconfigured hc, observable_of_unconfigured (s := s.rekey key rounds) hc]
  rfl

/-- States that show the same are one state, or are unconfigured and differ in KEY and ROUNDS alone. -/
theorem eq_or_rekey_of_observable_eq (h : s.observable = s'.observable) :
    s' = s ∨ (s.cfgValid = false ∧ s' = s.rekey s'.key s'.rounds) := by
  have hvalid : s.cfgValid = s'.cfgValid := by rw [← observable_cfgValid s, h, observable_cfgValid]
  cases hc : s.cfgValid with
  | true =>
    rw [observable_of_configured hc, observable_of_configured (hvalid.symm.trans hc)] at h
    exact .inl h.symm
  | false =>
    rw [observable_of_unconfigured hc, observable_of_unconfigured (hvalid.symm.trans hc)] at h
    exact .inr ⟨rfl, (congrArg (fun t : State => t.rekey s'.key s'.rounds) h).symm⟩

/-- On an unconfigured machine every word but USING_KEY's ends with a result that depends on the word alone (R29, R57). -/
theorem usingKey_or_finish_of_notConfigured (w : Word) :
    decode w = .ok .usingKey ∨
    ∃ c, ∀ s : State, s.cfgValid = false → commandStep w s = .next (s.ifTaken fun s => s.finish c) := by
  cases hw : decode w with
  | error e => exact .inr ⟨.illegalCommand, fun s _ => by simp only [commandStep, hw]⟩
  | ok i =>
    cases i with
    | usingKey => exact .inl rfl
    | withRounds | encipher | decipher =>
      exact .inr ⟨.notConfigured, fun s hc => by
        simp [commandStep, hw, State.ifTaken, withRounds_of_notConfigured hc, bufferOp_of_notConfigured _ hc]⟩

/-- USING_KEY overwrites KEY and ROUNDS, or leaves the machine unconfigured (R62). -/
theorem usingKey_rekey_observable (hc : s.cfgValid = false) :
    (usingKey (s.rekey key rounds)).observable = (usingKey s).observable := by
  obtain ⟨hn, h⟩ | ⟨k0, k1, k2, k3, ha, h⟩ := usingKey_cases s
  · rw [h, usingKey_of_unwritten (s := s.rekey key rounds) hn]
    exact observable_rekey (s := s.raiseFault .argUnwritten) key rounds hc
  · rw [h, usingKey_of_written (s := s.rekey key rounds) ha]
    rfl

/-- Whether a command is taken does not depend on KEY and ROUNDS (R98). -/
theorem ifTaken_rekey_observable {command : State → State} (hc : s.cfgValid = false)
    (h : (command (s.rekey key rounds)).observable = (command s).observable) :
    ((s.rekey key rounds).ifTaken command).observable = (s.ifTaken command).observable := by
  cases hf : s.fault with
  | true =>
    rw [State.ifTaken_of_fault hf, State.ifTaken_of_fault (s := s.rekey key rounds) hf]
    exact observable_rekey key rounds hc
  | false =>
    rw [State.ifTaken_of_clear hf, State.ifTaken_of_clear (s := s.rekey key rounds) hf]
    exact h

theorem commandStep_rekey_observable (w : Word) (hc : s.cfgValid = false) :
    mapNext State.observable (commandStep w (s.rekey key rounds)) = mapNext State.observable (commandStep w s) := by
  obtain hw | ⟨c, hend⟩ := usingKey_or_finish_of_notConfigured w
  · simp only [commandStep, hw, exec_usingKey, mapNext,
      ifTaken_rekey_observable key rounds hc (usingKey_rekey_observable key rounds hc)]
  · rw [hend s hc, hend (s.rekey key rounds) hc]
    exact congrArg Host.Outcome.next
      (ifTaken_rekey_observable key rounds hc (observable_rekey (s := s.finish c) key rounds hc))

theorem writeReg_rekey_observable (r : Reg) (v : Word) (hc : s.cfgValid = false) :
    mapNext State.observable (writeReg r v (s.rekey key rounds)) = mapNext State.observable (writeReg r v s) := by
  cases r with
  | arg n => exact congrArg Host.Outcome.next (observable_rekey (s := s.setArg n v) key rounds hc)
  | cmd => exact commandStep_rekey_observable key rounds v hc
  | status | reserved => exact congrArg Host.Outcome.next (observable_rekey key rounds hc)

/-- A host operation on an unconfigured machine shows the same whatever KEY and ROUNDS are; reset draws new ones (R109). -/
theorem hostOp_rekey_observable (op : HostOp) (hc : s.cfgValid = false) :
    mapNext State.observable (hostOp op (s.rekey key rounds)) = mapNext State.observable (hostOp op s) := by
  have hconfig : (s.rekey key rounds).config = s.config := rfl
  cases op with
  | busWrite addr bytes v =>
    simp only [hostOp, hconfig]
    cases registerAt s.config addr bytes with
    | error => rfl
    | ok r => exact writeReg_rekey_observable key rounds r v hc
  | busRead addr bytes =>
    simp only [hostOp, hconfig]
    cases registerAt s.config addr bytes with
    | error => rfl
    | ok r =>
      simp only [mapNext, readReg_rekey, observable_rekey key rounds ((readReg_cfgValid r s).trans hc)]
  | memWrite a v =>
    obtain ha | ha := Nat.lt_or_ge a.toNat s.config.memSize
    · rw [hostOp_memWrite ha, hostOp_memWrite (s := s.rekey key rounds) ha]
      exact congrArg Host.Outcome.next
        (observable_rekey (s := s.setMem (Memory.write s.mem a.toNat v)) key rounds hc)
    · rw [hostOp_memWrite_out ha, hostOp_memWrite_out (s := s.rekey key rounds) ha]
  | memRead a =>
    obtain ha | ha := Nat.lt_or_ge a.toNat s.config.memSize
    · rw [hostOp_memRead ha, hostOp_memRead (s := s.rekey key rounds) ha]
      exact congrArg Host.Outcome.next
        (observable_rekey (s := s.reply (.byte (Memory.read s.mem a.toNat))) key rounds hc)
    · rw [hostOp_memRead_out ha, hostOp_memRead_out (s := s.rekey key rounds) ha]
  | reset => rfl

theorem step_rekey_observable (hc : s.cfgValid = false) :
    mapNext State.observable (step (s.rekey key rounds)) = mapNext State.observable (step s) := by
  cases hops : s.host.ops with
  | nil =>
    rw [step_idle hops, step_idle (s := s.rekey key rounds) hops]
    exact congrArg Host.Outcome.next (observable_rekey key rounds hc)
  | cons op rest =>
    rw [step_op hops, step_op (s := s.rekey key rounds) hops]
    exact hostOp_rekey_observable (s := s.setOps rest) key rounds op hc

/-- States that show the same step alike: to the same stop, or to states that show the same. -/
theorem step_observable_congr (h : s.observable = s'.observable) :
    mapNext State.observable (step s) = mapNext State.observable (step s') := by
  obtain rfl | ⟨hc, hrekey⟩ := eq_or_rekey_of_observable_eq h
  · rfl
  · rw [hrekey]
    exact (step_rekey_observable s'.key s'.rounds hc).symm

/-- `step_observable_congr` over whole runs. -/
theorem run_observable_congr (k : Nat) (h : s.observable = s'.observable) :
    mapNext State.observable (Host.Core.run Sys2Proof.core k s : Host.Outcome State Fault Refusal) =
      mapNext State.observable (Host.Core.run Sys2Proof.core k s' : Host.Outcome State Fault Refusal) := by
  induction k generalizing s s' with
  | zero => exact congrArg Host.Outcome.next h
  | succ k ih =>
    have hstep := step_observable_congr h
    cases hs : step s with
    | next t =>
      rw [hs] at hstep
      obtain ⟨t', hs', ht⟩ := mapNext_eq_next.mp hstep.symm
      rw [run_succ_of_next hs, run_succ_of_next hs', ih ht.symm]
    | fault r =>
      rw [hs] at hstep
      rw [run_succ_of_fault hs, run_succ_of_fault (mapNext_eq_fault.mp hstep.symm)]
    | refused r =>
      rw [hs] at hstep
      rw [run_succ_of_refused hs, run_succ_of_refused (mapNext_eq_refused.mp hstep.symm)]

end Rekey

/-! ## Another host's side -/

section WithHost

variable (s : State) (h : HostSide)

theorem ifTaken_withHost {command : State → State} (hcommand : command (s.withHost h) = (command s).withHost h) :
    (s.withHost h).ifTaken command = (s.ifTaken command).withHost h := by
  cases hf : s.fault with
  | true => rw [State.ifTaken_of_fault hf, State.ifTaken_of_fault (s := s.withHost h) hf]
  | false => rw [State.ifTaken_of_clear hf, State.ifTaken_of_clear (s := s.withHost h) hf, hcommand]

theorem usingKey_withHost : usingKey (s.withHost h) = (usingKey s).withHost h := by
  obtain ⟨hn, hs⟩ | ⟨k0, k1, k2, k3, ha, hs⟩ := usingKey_cases s
  · rw [hs, usingKey_of_unwritten (s := s.withHost h) hn]; rfl
  · rw [hs, usingKey_of_written (s := s.withHost h) ha]; rfl

theorem withRounds_withHost : withRounds (s.withHost h) = (withRounds s).withHost h := by
  obtain ⟨hc, hs⟩ | ⟨hc, hn, hs⟩ | ⟨hc, n, hn, hs⟩ := withRounds_cases s
  · rw [hs, withRounds_of_notConfigured (s := s.withHost h) hc]; rfl
  · rw [hs, withRounds_of_unwritten (s := s.withHost h) hc hn]; rfl
  · rw [hs, withRounds_of_written (s := s.withHost h) hc hn]; rfl

/-- BufferOp's checks and its block loop read the configuration, the operands and MEM only (R81). -/
theorem bufferOp_withHost (dir : Direction) : bufferOp dir (s.withHost h) = (bufferOp dir s).withHost h := by
  have hvalid : (s.withHost h).cfgValid = s.cfgValid := rfl
  have hoperands : (s.withHost h).bufferOperands = s.bufferOperands := rfl
  have hconfig : (s.withHost h).config = s.config := rfl
  have htransform : (s.withHost h).transform dir = s.transform dir :=
    funext (State.transform_congr rfl rfl rfl dir)
  have hmem : (s.withHost h).mem = s.mem := rfl
  simp only [bufferOp, hvalid, hoperands, hconfig, htransform, hmem]
  split
  · rfl
  · cases s.bufferOperands with
    | none => rfl
    | some o => simp only [apply_ite (fun t : State => t.withHost h)]; rfl

theorem exec_withHost (i : Instr) : exec i (s.withHost h) = mapNext (fun t => t.withHost h) (exec i s) := by
  cases i with
  | usingKey => exact congrArg Host.Outcome.next (ifTaken_withHost s h (usingKey_withHost s h))
  | withRounds => exact congrArg Host.Outcome.next (ifTaken_withHost s h (withRounds_withHost s h))
  | encipher => exact congrArg Host.Outcome.next (ifTaken_withHost s h (bufferOp_withHost s h .enc))
  | decipher => exact congrArg Host.Outcome.next (ifTaken_withHost s h (bufferOp_withHost s h .dec))

end WithHost

/-! ## The statements -/

/-- Settles O51: by induction on the number of steps, `step_observable_congr` for each; what is observed is observable. -/
theorem unconfiguredKeyIsUnobservable : Obligations.UnconfiguredKeyIsUnobservable := by
  intro k s s' h
  have hrun := run_observable_congr k h
  refine ⟨hrun, fun t t' ht ht' => ?_⟩
  rw [ht, ht'] at hrun
  have hobs : t.observable = t'.observable := Host.Outcome.next.inj hrun
  rw [← observation_observable t, hobs, observation_observable]

/-- Settles O52: the two kinds of read commute with putting in another KEY and ROUNDS. -/
theorem keyHasNoReadPath : Obligations.KeyHasNoReadPath := by
  intro s op rest key rounds hops hread
  rw [step_op hops]
  refine (step_op (s := s.rekey key rounds) hops).trans ?_
  obtain ⟨addr, bytes, rfl⟩ | ⟨a, rfl⟩ := hread
  · exact hostOp_busRead_rekey (s := s.setOps rest) key rounds addr bytes
  · exact hostOp_memRead_rekey (s := s.setOps rest) key rounds a

/-- Settles O53: an illegal word and each of the four commands commute with putting in another host's side. -/
theorem commandsIgnoreHostSide : Obligations.CommandsIgnoreHostSide := by
  intro w s h
  change commandStep w (s.withHost h) = mapNext (fun t => t.withHost h) (commandStep w s)
  cases hw : decode w with
  | error e =>
    simp only [commandStep, hw]
    exact congrArg Host.Outcome.next (ifTaken_withHost s h rfl)
  | ok i =>
    simp only [commandStep, hw]
    exact exec_withHost s h i

end Sys2Proof.Machine

/-! SUPPORT. The round trips (41_feistel_round.md section 3, 42_block_engine.md section 2, 43_buffer_iterator.md sections 3 and 4):
rounds, block transforms and whole buffers undone; then the statements themselves. -/

namespace Sys2Proof.Machine

/-! ## Rounds and blocks -/

/-- DR takes off, half by half in the opposite order, what ER added, with the same mixed words (R73). -/
theorem decipherRound_encipherRound (delta : Word) (key : Key) (x : RoundState) :
    decipherRound delta key (encipherRound delta key x) = x := by
  simp only [encipherRound, decipherRound, BitVec.add_sub_cancel]

/-- ER adds, half by half in the opposite order, what DR took off, with the same mixed words (R73). -/
theorem encipherRound_decipherRound (delta : Word) (key : Key) (x : RoundState) :
    encipherRound delta key (decipherRound delta key x) = x := by
  simp only [encipherRound, decipherRound, BitVec.sub_add_cancel]

/-- What the decipher loop holds after ROUNDS rounds: the halves DecipherBlock gives, and the sum 0 that the encipher loop
starts from (R66, R76). -/
theorem iterate_decipherRound_eq (delta : Word) (key : Key) (rounds : Word) (b : Block) :
    iterate (decipherRound delta key) rounds.toNat { v0 := b.v0, v1 := b.v1, sum := decipherStartSum delta rounds } =
      { v0 := (decipherBlock delta key rounds b).v0, v1 := (decipherBlock delta key rounds b).v1, sum := 0#32 } := by
  have hsum := iterate_decipherRound_sum delta key rounds.toNat
    { v0 := b.v0, v1 := b.v1, sum := decipherStartSum delta rounds }
  rw [ofNat_toNat_word, decipherStartSum, BitVec.sub_self] at hsum
  rw [← hsum]
  rfl

theorem decipherBlock_encipherBlock (delta : Word) (key : Key) (rounds : Word) (b : Block) :
    decipherBlock delta key rounds (encipherBlock delta key rounds b) = b := by
  rw [decipherBlock, decipherStartSum, ← iterate_encipherRound_eq,
    iterate_leftInverse (decipherRound_encipherRound delta key)]

theorem encipherBlock_decipherBlock (delta : Word) (key : Key) (rounds : Word) (b : Block) :
    encipherBlock delta key rounds (decipherBlock delta key rounds b) = b := by
  rw [encipherBlock, ← iterate_decipherRound_eq,
    iterate_leftInverse (encipherRound_decipherRound delta key)]

theorem State.transform_dec_enc (s : State) (b : Block) : s.transform .dec (s.transform .enc b) = b :=
  decipherBlock_encipherBlock s.config.delta s.key s.rounds b

theorem State.transform_of_zeroRounds {s : State} (h : s.rounds = 0#32) (dir : Direction) (b : Block) :
    s.transform dir b = b := by
  cases dir with
  | enc => rw [State.transform, h, encipherBlock_zero]
  | dec => rw [State.transform, h, decipherBlock_zero]

/-! ## Buffers -/

/-- Ranges whose blocks are equal one by one are equal byte by byte. -/
theorem Memory.read_eq_of_blocks_eq (o : ByteOrder) {m m' : Memory} {a a' len : Nat} (hlen : len % 8 = 0)
    (h : ∀ i < len / 8, Memory.readBlock o m (a + 8 * i) = Memory.readBlock o m' (a' + 8 * i)) {k : Nat} (hk : k < len) :
    Memory.read m (a + k) = Memory.read m' (a' + k) := by
  have hsplit : k = 8 * (k / 8) + k % 8 := (Nat.div_add_mod k 8).symm
  rw [hsplit, ← Nat.add_assoc, ← Nat.add_assoc]
  exact Memory.read_eq_of_readBlock_eq o (h (k / 8) (by omega)) (by omega)

theorem State.bufferResult_of_empty {dir : Direction} {s : State} {o : BufferArgs} (h : o.len.toNat = 0) :
    s.bufferResult dir o = s.mem := by
  rw [State.bufferResult, h, Nat.zero_div, transformBlocks]

/-- An ENCIPHER or DECIPHER that ended with OK had passed every check (R97). -/
theorem State.bufferReady_of_exec_ok {dir : Direction} {s t : State} {src dst len cap : Word} (hf : s.fault = false)
    (ha : s.arg = #v[some src, some dst, some len, some cap]) (h : exec dir.command s = .next t) (hok : t.result = .ok) :
    s.BufferReady src dst len cap := by
  rw [exec_directionCommand_of_clear dir hf] at h
  obtain rfl := Host.Outcome.next.inj h
  obtain ⟨c, _, hc, hs⟩ | ⟨c, hc, hs⟩ | ⟨hv, o, ho, hp, _⟩ := bufferOp_cases dir s
  · rw [hs] at hok
    exact absurd hok hc
  · rw [hs] at hok
    obtain rfl : c = .ok := hok
    cases hc
  · obtain rfl : ⟨src, dst, len, cap⟩ = o := Option.some.inj ((State.bufferOperands_eq_some.mpr ha).symm.trans ho)
    exact ⟨hf, hv, ha, hp.len, hp.cap, hp.src, hp.dst, hp.apart⟩

/-! ## The statements -/

/-- Settles O32: both commands pass their checks, so output block `i` of the DECIPHER is the decipher transform of the encipher
transform of input block `i`. -/
theorem bufferRoundTrip : Obligations.BufferRoundTrip := by
  intro s t u inp out plain len cap cap' hsm hum hf ha hs hok hu hkey hrounds hconfig hbytes
  obtain ⟨hkey', hrounds', _, _, hconfig', _⟩ := bufferCommandsFrame .enc s t hsm hs
  have hus : ∀ dir b, u.transform dir b = s.transform dir b :=
    State.transform_congr (hkey.trans hkey') (hrounds.trans hrounds') (hconfig.trans hconfig')
  have hready : s.BufferReady inp out len cap := State.bufferReady_of_exec_ok (dir := .enc) hf ha hs hok
  obtain ⟨v, hv, hframe, hplain, _⟩ := hu.exec_transforms hum .dec
  refine ⟨v, hv, congrArg State.result hframe, fun k hk => ?_⟩
  refine Memory.read_eq_of_blocks_eq s.config.byteOrder hready.lenOk (fun i hi => ?_) hk
  have hcipher : Memory.readBlock s.config.byteOrder u.mem (out.toNat + 8 * i) =
      Memory.readBlock s.config.byteOrder t.mem (out.toNat + 8 * i) :=
    Memory.readBlock_congr _ fun k hk => by rw [Nat.add_assoc, hbytes (8 * i + k) (by omega)]
  have hblock := hplain i hi
  rw [hconfig.trans hconfig', hcipher, hready.exec_block (dir := .enc) hsm hs hi, hus, State.transform_dec_enc] at hblock
  exact hblock

/-- Settles O18: the loop of each direction starts at the sum where the other ends, and its rounds undo the other's. -/
theorem blockRoundTrip : Obligations.BlockRoundTrip := fun delta key rounds b =>
  ⟨decipherBlock_encipherBlock delta key rounds b, encipherBlock_decipherBlock delta key rounds b⟩

/-- Settles O17: each direction takes off what the other added, in the opposite order. -/
theorem roundsAreInverse : Obligations.RoundsAreInverse := fun delta key x =>
  ⟨decipherRound_encipherRound delta key x, encipherRound_decipherRound delta key x⟩

/-- Settles O30: every output block is the transform of its input block, which with no round is that block. -/
theorem zeroRoundsCopyBuffer : Obligations.ZeroRoundsCopyBuffer := by
  intro dir s src dst len cap hm hs hrounds
  obtain ⟨t, ht, hframe, hblocks, _⟩ := hs.exec_transforms hm dir
  refine ⟨t, ht, congrArg State.result hframe, fun k hk => ?_⟩
  refine Memory.read_eq_of_blocks_eq s.config.byteOrder hs.lenOk (fun i hi => ?_) hk
  rw [hblocks i hi, State.transform_of_zeroRounds hrounds]

/-- Settles O28: a length of 0 passes every check whatever the addresses and the capacity, and the block loop runs zero times. -/
theorem emptyBufferIsOk : Obligations.EmptyBufferIsOk := by
  intro dir s src dst cap hf hc ha
  have hready : s.BufferReady src dst 0#32 cap :=
    ⟨hf, hc, ha, rfl, Nat.zero_le _, .inl rfl, .inl rfl, fun h => Nat.lt_irrefl 0 h.1⟩
  rw [hready.exec_eq dir, State.bufferResult_of_empty rfl]
  rfl

end Sys2Proof.Machine

/-! SUPPORT. The remaining statements: the selector pairs at the spec's DELTA, words in little-endian order, the host's accesses
to MEM, and the single words, offsets and reset values of the tables. -/

namespace Sys2Proof.Machine

/-- DELTA leaves the remainder 1 by 4, so the sum at round `j` leaves that of `j` (40_key_schedule.md section 3). -/
theorem selA_ofNat_mul_delta (j : Nat) : (selA (BitVec.ofNat 32 j * 0x9E3779B9#32)).val = j % 4 := by
  rw [selA_val, and_three_toNat, BitVec.toNat_mul, BitVec.toNat_ofNat, BitVec.toNat_ofNat]
  omega

/-- Byte `k` of a word in little-endian order is its bits from `8 * k` on (R39). -/
theorem unbe32_byteRank_le (v : Word) {k : Nat} (hk : k < 4) : unbe32 v (byteRank .le k) = v.extractLsb' (8 * k) 8 := by
  have hbit : 24 - 8 * (3 - k) = 8 * k := by omega
  rw [byteRank, unbe32, hbit]

/-! ## The statements -/

/-- Settles O14: `selA_ofNat_mul_delta` for every round, and the 32 pairs by evaluation. -/
theorem selectorSequence : Obligations.SelectorSequence := ⟨selA_ofNat_mul_delta, by decide⟩

/-- Settles O23: the reader's definition, and `Memory.read_writeWord` inside and outside the word. -/
theorem wordBytesLittleEndian : Obligations.WordBytesLittleEndian := by
  intro m a v hm
  refine ⟨rfl, fun k hk => ?_, fun b hb => ?_⟩
  · rw [Memory.read_writeWord hm, if_pos (by omega), Nat.add_sub_cancel_left, unbe32_byteRank_le v hk]
  · rw [Memory.read_writeWord hm, if_neg (by omega)]

/-- Settles O46: the step is the host's access, which exists below MEM_SIZE and stops elsewhere. -/
theorem hostMemoryAccess : Obligations.HostMemoryAccess := by
  intro s rest a hm
  refine ⟨fun v hops => ?_, fun hops => ?_⟩
  · rw [step_op hops]
    refine ⟨fun ha => ⟨_, hostOp_memWrite (s := s.setOps rest) ha v, rfl, fun b => ?_⟩,
      fun ha => hostOp_memWrite_out (s := s.setOps rest) ha v⟩
    exact (Memory.read_write hm a.toNat v b).trans (if_congr eq_comm rfl rfl)
  · rw [step_op hops]
    exact ⟨fun ha => hostOp_memRead (s := s.setOps rest) ha, fun ha => hostOp_memRead_out (s := s.setOps rest) ha⟩

/-- Settles O1: each word by evaluation of the decoder. -/
theorem commandWordsDecode : Obligations.CommandWordsDecode := ⟨rfl, rfl, rfl, rfl, rfl, rfl, rfl, rfl, rfl⟩

/-- Settles O4: the bus at the offset of CMD, and the decoded word. -/
theorem stepRunsDecodedCommand : Obligations.StepRunsDecodedCommand := by
  intro s w i rest hops hw
  rw [step_busWr (r := .cmd) hops, decode_eq_ok_iff.mp hw]
  exact commandStep_encode i (s.setOps rest)

/-- Settles O39: the bus at the offsets of the two reserved words. -/
theorem reservedRegistersAreInert : Obligations.ReservedRegistersAreInert := by
  rintro s rest offset (rfl | rfl)
  · exact ⟨fun _ hops => step_busWr (r := .reserved 0) hops, fun hops => step_busRd (r := .reserved 0) hops⟩
  · exact ⟨fun _ hops => step_busWr (r := .reserved 1) hops, fun hops => step_busRd (r := .reserved 1) hops⟩

/-- Settles O47: the fields of `State.reset`. -/
theorem resetState : Obligations.ResetState := ⟨getElem_unwritten, rfl, rfl, rfl, rfl⟩

/-- Settles O48: the step is the host's reset, which writes the registers and leaves the rest. -/
theorem hostResetKeepsMemory : Obligations.HostResetKeepsMemory := by
  intro s rest hops
  exact ⟨_, step_op hops, getElem_unwritten, rfl, rfl, rfl, rfl, rfl, rfl⟩

end Sys2Proof.Machine
